-- ==== Sys2Proof/Word.lean ====
section
/-! DEFINITION. The word types of the block: a byte, a MAC address, a VLAN id, a 16-bit header field
(spec/00_scope.md R8, R9; spec/10_state.md R21). Only names of widths stand here. -/

namespace Sys2Proof

/-- "A byte is 8 bits, an integer 0..255" (R8). -/
abbrev Byte := BitVec 8

/-- A 48-bit MAC address; the first byte of the frame's field is the most significant (R9). -/
abbrev Mac := BitVec 48

/-- A VLAN id, `VID_W` = 12 bits in the tag and in PORT_CFG (R6, R96). -/
abbrev VlanId := BitVec 12

/-- A 16-bit header field: TPID, TCI or EtherType (R21, R82). -/
abbrev Half := BitVec 16

/-- A frame is a finite sequence of bytes, offset 0 first (R8). -/
abbrev Frame := List Byte

end Sys2Proof
end

