-- ==== Sys2Proof/Config.lean ====
section
/-! DEFINITION. The implementation parameters of the block (spec/00_scope.md R6, R7) as one record, the
widths derived from them, the parameter values of the one reset state the host's interface asks for, and the
free values (opaque constants with no body) for what spec/93_implementation_defined.md U14 leaves "any value". -/

namespace Sys2Proof

/-- Port kind; the 1-bit code is Access = 0, Trunk = 1 (R93, spec/92_eei_decisions.md D14). -/
inductive Kind
  | access
  | trunk
  deriving DecidableEq, Repr, Inhabited

/-- Parameter `SAME_PORT_HIT` (R151, D10): what a known-unicast hit on the ingress port does. -/
inductive SamePortHit
  | reflect
  | drop
  deriving DecidableEq, Repr

/-- The configuration record of R6: "A model takes the parameters marked OPEN as arguments (a configuration
record)"; "A model's configuration record has exactly these fields" (spec/92_eei_decisions.md). It stands in
`State` and no step changes it (log entry 1). -/
structure Params where
  /-- `NUM_PORTS`, an integer >= 1. -/
  numPorts : Nat
  /-- `TPID`, the 16-bit tag protocol identifier. -/
  tpid : Half
  /-- `MAX_FRAME_BYTES`, at least 18. -/
  maxFrameBytes : Nat
  /-- `TABLE_DEPTH`; `none` is INF, the unbounded table. -/
  tableDepth : Option Nat
  /-- `SAME_PORT_HIT`. -/
  samePortHit : SamePortHit
  /-- `HOST_MAP`, as pairs of a host register number (R34) and its bus address. DESIGN CHOICE (log entry 2): the spec
  gives it no form, and names a data width too, which stands nowhere here; "no rule depends on it" (R34). -/
  hostMap : List (Nat × Nat)
  deriving DecidableEq, Repr

/-- `BCAST` = FF:FF:FF:FF:FF:FF, "all bits set" (R6, R91). -/
def bcastMac : Mac := 0xFFFFFFFFFFFF#48

/-- The bounds R6 puts on the parameters. -/
def Params.legal (P : Params) : Bool :=
  decide (1 ≤ P.numPorts) && decide (18 ≤ P.maxFrameBytes) &&
    (match P.tableDepth with
      | none => true
      | some d => decide (1 ≤ d))

/-- The first `w` at or after the given one with `n ≤ 2 ^ w`, searched `fuel` times. -/
def clog2From (n : Nat) : Nat → Nat → Nat
  | 0, w => w
  | fuel + 1, w => if n ≤ 2 ^ w then w else clog2From n fuel (w + 1)

/-- `ceil(log2 n)`, the least `w` with `n ≤ 2 ^ w`. -/
def clog2 (n : Nat) : Nat := clog2From n n 0

/-- `PORT_W` = max(1, ceil(log2(NUM_PORTS))) (R6, D2). -/
def Params.portW (P : Params) : Nat := max 1 (clog2 P.numPorts)

/-- `LEN_W`, the "smallest w with MAX_FRAME_BYTES + 4 < 2^w" (R6, D6). -/
def Params.lenW (P : Params) : Nat := clog2 (P.maxFrameBytes + 5)

/-- DESIGN CHOICE (log entry 2): the parameter values of `State.reset`. TPID is the spec's default 0x8100 (R83);
TABLE_DEPTH = INF and SAME_PORT_HIT = REFLECT are the conventions of spec/95_test_vectors.md; the spec gives no
value for the others. Statements quantify over every parameter record, not over this one. -/
def Params.initial : Params :=
  { numPorts := 4, tpid := 0x8100#16, maxFrameBytes := 4096, tableDepth := none,
    samePortHit := .reflect, hostMap := [] }

/-! Free values. Each is an opaque constant applied to the state's counter `free`: nothing can be proved of
what it is, so a claim holds whatever it is (U14 "any value", log entries 3 and 4). -/

/-- `kind` and `vlan` of PORT_CFG[p] after the `n`-th reset (R28, R37, U14): the counter, then the port. -/
opaque Config.freePortKind : Nat → Nat → Kind
/-- See `Config.freePortKind`. -/
opaque Config.freePortVlan : Nat → Nat → VlanId
/-- `w.INP` outside a PROCESS (R23, U14). -/
opaque Config.freeInp : Nat → Nat
/-- `w.LEN` outside a PROCESS. -/
opaque Config.freeLen : Nat → Nat
/-- `w.DM` outside a PROCESS. -/
opaque Config.freeDm : Nat → Mac
/-- `w.SM` outside a PROCESS. -/
opaque Config.freeSm : Nat → Mac
/-- `w.ET` outside a PROCESS. -/
opaque Config.freeEt : Nat → Half
/-- `w.TAGGED` and `w.VID` outside a PROCESS, as the option type R22 asks for. -/
opaque Config.freeVlanId : Nat → Option VlanId
/-- `w.SK` outside a PROCESS. -/
opaque Config.freeSk : Nat → Kind
/-- `w.SV` outside a PROCESS. -/
opaque Config.freeSv : Nat → VlanId
/-- The iterator `d` outside a PROCESS (R24). -/
opaque Config.freeD : Nat → Nat
/-- The frame buffer after a PROCESS (R50: "unspecified and unobservable"). -/
opaque Config.freeFrame : Nat → Frame

end Sys2Proof
end

