-- ==== Sys2Proof/Syntax.lean ====
section
/-! DEFINITION. The operations of the block as syntax: one constructor of `Instr` per row of
spec/opcode_table.json (spec/00_scope.md R2: "Instruction" means one operation of the block), and the
transaction that carries an operation to the block (spec/10_state.md R30 to R33: transaction-level interfaces;
spec/30_encoding.md R105: operations "are selected by the interface that carries them, not by a bit pattern"). -/

namespace Sys2Proof

/-- The 2-bit RESULT code (R200). -/
inductive Code
  | ok
  | malformed
  | unknownIngress
  | unknownEgress
  deriving DecidableEq, Repr

/-- A RESULT value `(code, tbl_full)` (R32). -/
structure Result where
  code : Code
  tblFull : Bool
  deriving DecidableEq, Repr

/-- A frame action `(port, bytes, length)` (R11). -/
structure Action where
  port : Nat
  bytes : Frame
  length : Nat
  deriving DecidableEq, Repr

/-- Port identifiers are `Nat`; the wires carry PORT_W bits, which `Instr.wf` and the decoder check. A VLAN id
that may be absent is an `Option` (R22): `none` is TAGGED = 0. -/
inductive Instr
  -- format FRAME: an RX transaction, in the class its bytes select (R88)
  | short (inp : Nat) (F : Frame)
  | untagged (inp : Nat) (dm sm : Mac) (et : Half) (payload : Frame)
  | shortTagged (inp : Nat) (dm sm : Mac) (rest : Frame)
  | tagged (inp : Nat) (dm sm : Mac) (pri : BitVec 4) (vid : VlanId) (et : Half) (payload : Frame)
  -- format TAGWORD: the 32-bit tag (R86, R111)
  | tag (vid : VlanId)
  -- format DEST: destination classes (R91)
  | bcast (inp : Nat)
  | known (dm : Mac) (inp : Nat)
  | unknown (dm : Mac) (inp : Nat)
  -- format POLICY: the rows of the 2x2 table (R92), for the candidate egress port d
  | aaFwd (d : Nat) (vlan : VlanId) (F : Frame)
  | aaDrop (d : Nat) (sv dv : VlanId) (F : Frame)
  | atTag (d : Nat) (sv : VlanId) (F : Frame)
  | taStrip (d : Nat) (vlan : VlanId) (F : Frame)
  | taDrop (d : Nat) (dv : VlanId) (vlanId : Option VlanId) (F : Frame)
  | ttFwd (d : Nat) (F : Frame)
  -- format OP: the datapath operations
  | decode (F : Frame) (len : Nat)
  | encodeTag (vlanId : Nat)
  | insertTag (F : Frame) (vlanId : Nat)
  | stripTag (F : Frame)
  | learn (sm : Mac) (inp : Nat)
  | lookup (dm : Mac)
  | candidates (dm : Mac) (inp : Nat)
  | policy (sk : Kind) (sv : VlanId) (vlanId : Option VlanId) (F : Frame) (len : Nat) (d : Nat)
  | process (inp : Nat) (F : Frame) (len : Nat)
  -- format HOST: the host operations
  | cfgWrite (p : Nat) (valid : Bool) (kind : Kind) (vlan : VlanId)
  | cfgRead (p : Nat)
  | faultRead
  | reset
  -- format RESULT: the per-frame outcomes (R200), each the answer to the RX transaction next in the queue (R32)
  | ok (tblFull : Bool) (actions : List Action)
  | malformed
  | unknownIngress (tblFull : Bool)
  | unknownEgress (tblFull : Bool)
  | tblFull
  -- format REGWORD: the 14-bit PORT_CFG word (R94), for port p
  | portCfg (p : Nat) (word : BitVec 14)
  deriving DecidableEq, Repr

/-- The line of the block's interfaces, or of its decision tables, that carries an operation (R105). -/
inductive Line
  | rx | tagWord | dest | policyRow
  | decode | encodeTag | insertTag | stripTag | learn | lookup | candidates | policy | process
  | cfgWrite | cfgRead | faultRead | reset
  | result | tblFull | portCfg
  deriving DecidableEq, Repr

/-- One transaction: the line that carries it, its numeric fields in order, and its bytes. The order of the
fields is the model's (log entry 5); the bits inside a field are the spec's. -/
structure Txn where
  line : Line
  fields : List Nat
  bytes : Frame
  deriving DecidableEq, Repr

/-- Why the decoder rejects a transaction. Each is safe: the machine stops where the spec gives no operation. -/
inductive Reject
  /-- The line does not carry that many fields. -/
  | fieldCount
  /-- A field does not fit the width the spec gives it. -/
  | fieldTooWide
  /-- A port identifier does not fit PORT_W bits (R7). -/
  | portTooWide
  /-- R30, U4: `len` differs from the byte count of `F`, or exceeds MAX_FRAME_BYTES. -/
  | rxLength
  /-- The line carries no bytes (or fewer), and the transaction holds some. -/
  | strayBytes
  /-- The bits match no row of the line's table (a RESULT code with no such tbl_full, a tag word whose TPID or
  upper four TCI bits differ from R86). -/
  | noRow
  deriving DecidableEq, Repr

/-- The mnemonic's line, for each operation. -/
def Instr.line : Instr → Line
  | .short .. | .untagged .. | .shortTagged .. | .tagged .. => .rx
  | .tag .. => .tagWord
  | .bcast .. | .known .. | .unknown .. => .dest
  | .aaFwd .. | .aaDrop .. | .atTag .. | .taStrip .. | .taDrop .. | .ttFwd .. => .policyRow
  | .decode .. => .decode
  | .encodeTag .. => .encodeTag
  | .insertTag .. => .insertTag
  | .stripTag .. => .stripTag
  | .learn .. => .learn
  | .lookup .. => .lookup
  | .candidates .. => .candidates
  | .policy .. => .policy
  | .process .. => .process
  | .cfgWrite .. => .cfgWrite
  | .cfgRead .. => .cfgRead
  | .faultRead => .faultRead
  | .reset => .reset
  | .ok .. | .malformed | .unknownIngress .. | .unknownEgress .. => .result
  | .tblFull => .tblFull
  | .portCfg .. => .portCfg

end Sys2Proof
end

