-- ==== Sys2Proof/WellFormed.lean ====
section
/-! DEFINITION. Which operations are well formed for given parameters: every operand fits its wires, and the row
of the decision table is the one its operands select (spec/30_encoding.md R88, R91, R92). What only the state can
tell (a register that exists, a table hit) is no part of it; `exec` checks that. -/

namespace Sys2Proof

/-- A PORT_W-bit port identifier (R7). -/
def portOk (P : Params) (p : Nat) : Bool := decide (p < 2 ^ P.portW)

/-- A LEN_W-bit length (R21, R35). -/
def lenOk (P : Params) (n : Nat) : Bool := decide (n < 2 ^ P.lenW)

/-- An action whose length is its byte count and whose port fits its wires (R31). -/
def Action.wf (P : Params) (a : Action) : Bool :=
  portOk P a.port && decide (a.length = a.bytes.length)

/-- The operand and row conditions, one line per constructor. -/
def Instr.wf (P : Params) : Instr → Bool
  | .short inp F => portOk P inp && decide (F.length < 14)
  | .untagged inp _ _ et payload =>
      portOk P inp && decide (et ≠ P.tpid) && decide (14 + payload.length ≤ P.maxFrameBytes)
  | .shortTagged inp _ _ rest => portOk P inp && decide (rest.length < 4)
  | .tagged inp _ _ _ _ _ payload => portOk P inp && decide (18 + payload.length ≤ P.maxFrameBytes)
  | .tag _ => true
  | .bcast inp => portOk P inp
  | .known dm inp => portOk P inp && decide (dm ≠ bcastMac)
  | .unknown dm inp => portOk P inp && decide (dm ≠ bcastMac)
  | .aaFwd d _ _ => portOk P d
  | .aaDrop d sv dv _ => portOk P d && decide (dv ≠ sv)
  | .atTag d _ _ => portOk P d
  | .taStrip d _ _ => portOk P d
  | .taDrop d dv vlanId _ => portOk P d && decide (vlanId ≠ some dv)
  | .ttFwd d _ => portOk P d
  | .decode _ len => lenOk P len
  | .encodeTag _ => true
  | .insertTag _ _ => true
  | .stripTag _ => true
  | .learn _ inp => portOk P inp
  | .lookup _ => true
  | .candidates _ inp => portOk P inp
  | .policy _ _ _ _ len d => lenOk P len && portOk P d
  | .process inp _ len => portOk P inp && lenOk P len
  | .cfgWrite _ _ _ _ => true
  | .cfgRead _ => true
  | .faultRead => true
  | .reset => true
  | .ok _ actions => actions.all (Action.wf P)
  | .malformed => true
  | .unknownIngress _ => true
  | .unknownEgress _ => true
  | .tblFull => true
  | .portCfg _ _ => true

end Sys2Proof
end

