-- ==== Sys2Proof/Decode.lean ====
section
/-! DEFINITION. The decoder, total on any transaction, rejecting by name; after it the encoder, written from the
same layouts and tables of spec/30_encoding.md (R81 to R94); and the host's numbering of table words. -/

namespace Sys2Proof

/-! ### Bytes and fields (R9, R51: big-endian) -/

/-- `F[i]`; every use states the length it needs first (R8). -/
def byteAt (F : Frame) (i : Nat) : Byte := F.getD i 0#8

/-- `be16(b0, b1)` = b0 * 256 + b1 (R9). -/
def be16 (b0 b1 : Byte) : Half := BitVec.ofNat 16 (b0.toNat * 256 + b1.toNat)

/-- `bytes16(v)`, the two bytes `(v[15:8], v[7:0])` (R9). -/
def bytes16 (v : Half) : Frame := [BitVec.ofNat 8 (v.toNat / 256), BitVec.ofNat 8 (v.toNat % 256)]

/-- `mac48(F[a..a+6])`: the byte at the lowest offset is the most significant (R9). -/
def mac48 (F : Frame) (a : Nat) : Mac :=
  BitVec.ofNat 48 (((((((byteAt F a).toNat * 256 + (byteAt F (a + 1)).toNat) * 256 + (byteAt F (a + 2)).toNat) * 256
    + (byteAt F (a + 3)).toNat) * 256 + (byteAt F (a + 4)).toNat) * 256 + (byteAt F (a + 5)).toNat))

/-- The six bytes of a MAC address, the inverse of `mac48`. -/
def macBytes (m : Mac) : Frame :=
  [BitVec.ofNat 8 (m.toNat / 256 ^ 5), BitVec.ofNat 8 (m.toNat / 256 ^ 4 % 256), BitVec.ofNat 8 (m.toNat / 256 ^ 3 % 256),
   BitVec.ofNat 8 (m.toNat / 256 ^ 2 % 256), BitVec.ofNat 8 (m.toNat / 256 % 256), BitVec.ofNat 8 (m.toNat % 256)]

/-- TCI[11:0], the VLAN id of a TCI (R84, R85). -/
def tciVid (tci : Half) : VlanId := BitVec.ofNat 12 (tci.toNat % 4096)

/-- TCI[15:12], the bits no rule distinguishes (R84). -/
def tciPri (tci : Half) : BitVec 4 := BitVec.ofNat 4 (tci.toNat / 4096)

/-- The TCI with the given upper four bits and VLAN id. -/
def tciOf (pri : BitVec 4) (vid : VlanId) : Half := BitVec.ofNat 16 (pri.toNat * 4096 + vid.toNat)

/-- Port kind codes (R93). -/
def kindOf (code : Nat) : Kind := if code = 0 then .access else .trunk

/-- See `kindOf`. -/
def kindCode : Kind → Nat
  | .access => 0
  | .trunk => 1

/-- A 1-bit field. -/
def bitCode (b : Bool) : Nat := if b then 1 else 0

/-- RESULT codes (R200). -/
def codeBits : Code → BitVec 2
  | .ok => 0b00#2
  | .malformed => 0b01#2
  | .unknownIngress => 0b10#2
  | .unknownEgress => 0b11#2

/-- The PORT_CFG word `valid : kind : vlan[11:0]`, bit 13 = valid, bit 12 = kind (R94). -/
def cfgWord (valid : Bool) (kind : Kind) (vlan : VlanId) : BitVec 14 :=
  BitVec.ofNat 14 (bitCode valid * 8192 + kindCode kind * 4096 + vlan.toNat)

/-- The fields of a PORT_CFG word (R94). -/
def wordValid (word : BitVec 14) : Bool := decide (word.toNat / 8192 = 1)
/-- See `wordValid`. -/
def wordKind (word : BitVec 14) : Kind := kindOf (word.toNat / 4096 % 2)
/-- See `wordValid`. -/
def wordVlan (word : BitVec 14) : VlanId := BitVec.ofNat 12 (word.toNat % 4096)

/-- The 32-bit tag word of a VLAN id: TPID, four zero bits, VID (R86). -/
def tagWord (P : Params) (vid : VlanId) : Nat := P.tpid.toNat * 65536 + vid.toNat

/-! ### Decoding -/

/-- The frame class of R88, decided in the table's order, with the fields of its layout (R81, R82, R85). -/
def decodeFrame (P : Params) (inp : Nat) (F : Frame) : Instr :=
  if F.length < 14 then .short inp F
  else if be16 (byteAt F 12) (byteAt F 13) = P.tpid then
    if F.length < 18 then .shortTagged inp (mac48 F 0) (mac48 F 6) (F.drop 14)
    else
      .tagged inp (mac48 F 0) (mac48 F 6) (tciPri (be16 (byteAt F 14) (byteAt F 15)))
        (tciVid (be16 (byteAt F 14) (byteAt F 15))) (be16 (byteAt F 16) (byteAt F 17)) (F.drop 18)
  else .untagged inp (mac48 F 0) (mac48 F 6) (be16 (byteAt F 12) (byteAt F 13)) (F.drop 14)

/-- Answers `i` where the check holds, the named rejection where it does not. -/
def require (check : Bool) (why : Reject) (next : Except Reject Instr) : Except Reject Instr :=
  if check then next else .error why

/-- A numeric field of `w` bits. -/
def fits (w n : Nat) : Bool := decide (n < 2 ^ w)

/-- The actions of an OK result: each is a port and a length, its bytes cut from the front. -/
def decodeActions (P : Params) : List Nat → Frame → Except Reject (List Action)
  | [], [] => .ok []
  | [], _ :: _ => .error .strayBytes
  | [_], _ => .error .fieldCount
  | port :: len :: more, bytes =>
      if portOk P port then
        if len ≤ bytes.length then
          match decodeActions P more (bytes.drop len) with
          | .ok rest => .ok ({ port := port, bytes := bytes.take len, length := len } :: rest)
          | .error why => .error why
        else .error .strayBytes
      else .error .portTooWide

/-- The policy rows by their 2-bit code (src_kind, d_kind) and the row's condition (R92). -/
def decodePolicyRow (P : Params) (fields : List Nat) (F : Frame) : Except Reject Instr :=
  match fields with
  | [0, d, sv, dv] =>
      require (portOk P d) .portTooWide <| require (fits 12 sv && fits 12 dv) .fieldTooWide <|
        .ok (if dv = sv then .aaFwd d (BitVec.ofNat 12 sv) F
             else .aaDrop d (BitVec.ofNat 12 sv) (BitVec.ofNat 12 dv) F)
  | [1, d, sv] =>
      require (portOk P d) .portTooWide <| require (fits 12 sv) .fieldTooWide <|
        .ok (.atTag d (BitVec.ofNat 12 sv) F)
  | [2, d, dv, isTagged, vid] =>
      require (portOk P d) .portTooWide <|
        require (fits 12 dv && fits 1 isTagged && fits 12 vid) .fieldTooWide <|
        .ok (if isTagged = 1 then
               if dv = vid then .taStrip d (BitVec.ofNat 12 dv) F
               else .taDrop d (BitVec.ofNat 12 dv) (some (BitVec.ofNat 12 vid)) F
             else .taDrop d (BitVec.ofNat 12 dv) none F)
  | [3, d] => require (portOk P d) .portTooWide <| .ok (.ttFwd d F)
  | _ => .error .fieldCount

/-- The RESULT rows by their 2-bit code and the tbl_full bit beside it (R200); tbl_full "can accompany any code
except MALFORMED". -/
def decodeResult (P : Params) (fields : List Nat) (bytes : Frame) : Except Reject Instr :=
  match fields with
  | code :: tf :: rest =>
      require (fits 2 code && fits 1 tf) .fieldTooWide <|
        if code = 0 then
          match decodeActions P rest bytes with
          | .ok actions => .ok (.ok (decide (tf = 1)) actions)
          | .error why => .error why
        else
          require rest.isEmpty .fieldCount <| require bytes.isEmpty .strayBytes <|
            if code = 1 then require (decide (tf = 0)) .noRow (.ok .malformed)
            else if code = 2 then .ok (.unknownIngress (decide (tf = 1)))
            else .ok (.unknownEgress (decide (tf = 1)))
  | _ => .error .fieldCount

/-- The operation a transaction carries, or why there is none. The RX line is decoded by the frame's own bytes
(R88, R89), the other lines by the fields they carry. -/
def decode (P : Params) (t : Txn) : Except Reject Instr :=
  match t.line, t.fields, t.bytes with
  | .rx, [inp, len], F =>
      require (portOk P inp) .portTooWide <|
        require (decide (len = F.length) && decide (len ≤ P.maxFrameBytes)) .rxLength <|
        .ok (decodeFrame P inp F)
  | .tagWord, [w], [] =>
      require (fits 32 w) .fieldTooWide <|
        require (decide (w = tagWord P (BitVec.ofNat 12 w))) .noRow (.ok (.tag (BitVec.ofNat 12 w)))
  | .dest, [dm, inp, hit], [] =>
      require (portOk P inp) .portTooWide <| require (fits 48 dm && fits 1 hit) .fieldTooWide <|
        .ok (if BitVec.ofNat 48 dm = bcastMac then .bcast inp
             else if hit = 1 then .known (BitVec.ofNat 48 dm) inp
             else .unknown (BitVec.ofNat 48 dm) inp)
  | .policyRow, fields, F => decodePolicyRow P fields F
  | .decode, [len], F => require (lenOk P len) .fieldTooWide (.ok (.decode F len))
  | .encodeTag, [v], [] => .ok (.encodeTag v)
  | .insertTag, [v], F => .ok (.insertTag F v)
  | .stripTag, [], F => .ok (.stripTag F)
  | .learn, [sm, inp], [] =>
      require (portOk P inp) .portTooWide <| require (fits 48 sm) .fieldTooWide <|
        .ok (.learn (BitVec.ofNat 48 sm) inp)
  | .lookup, [dm], [] => require (fits 48 dm) .fieldTooWide (.ok (.lookup (BitVec.ofNat 48 dm)))
  | .candidates, [dm, inp], [] =>
      require (portOk P inp) .portTooWide <| require (fits 48 dm) .fieldTooWide <|
        .ok (.candidates (BitVec.ofNat 48 dm) inp)
  | .policy, [sk, sv, isTagged, vid, len, d], F =>
      require (portOk P d) .portTooWide <|
        require (fits 1 sk && fits 12 sv && fits 1 isTagged && fits 12 vid && lenOk P len) .fieldTooWide <|
        .ok (.policy (kindOf sk) (BitVec.ofNat 12 sv) (if isTagged = 1 then some (BitVec.ofNat 12 vid) else none)
          F len d)
  | .process, [inp, len], F =>
      require (portOk P inp) .portTooWide <| require (lenOk P len) .fieldTooWide (.ok (.process inp F len))
  | .cfgWrite, [p, word], [] =>
      require (fits 14 word) .fieldTooWide <|
        .ok (.cfgWrite p (wordValid (BitVec.ofNat 14 word)) (wordKind (BitVec.ofNat 14 word))
          (wordVlan (BitVec.ofNat 14 word)))
  | .cfgRead, [p], [] => .ok (.cfgRead p)
  | .faultRead, [], [] => .ok .faultRead
  | .reset, [], [] => .ok .reset
  | .result, fields, bytes => decodeResult P fields bytes
  | .tblFull, [bit], [] => require (decide (bit = 1)) .noRow (.ok .tblFull)
  | .portCfg, [p, word], [] => require (fits 14 word) .fieldTooWide (.ok (.portCfg p (BitVec.ofNat 14 word)))
  | _, _, _ => .error .fieldCount

/-! ### Encoding -/

/-- The bytes of a frame-class operation (R81, R82). -/
def frameBytes (P : Params) : Instr → Frame
  | .short _ F => F
  | .untagged _ dm sm et payload => macBytes dm ++ macBytes sm ++ bytes16 et ++ payload
  | .shortTagged _ dm sm rest => macBytes dm ++ macBytes sm ++ bytes16 P.tpid ++ rest
  | .tagged _ dm sm pri vid et payload =>
      macBytes dm ++ macBytes sm ++ bytes16 P.tpid ++ bytes16 (tciOf pri vid) ++ bytes16 et ++ payload
  | _ => []

/-- The fields of an action list on the RESULT line. -/
def actionFields : List Action → List Nat
  | [] => []
  | a :: rest => a.port :: a.length :: actionFields rest

/-- The bytes of an action list on the RESULT line. -/
def actionBytes : List Action → Frame
  | [] => []
  | a :: rest => a.bytes ++ actionBytes rest

/-- TAGGED and VID as two fields (R22); VID is written 0 where the VLAN id is absent. -/
def vlanIdFields : Option VlanId → List Nat
  | none => [0, 0]
  | some vid => [1, vid.toNat]

/-- The numeric fields of an operation. -/
def encodeFields (P : Params) : Instr → List Nat
  | .short inp F => [inp, F.length]
  | .untagged inp _ _ _ payload => [inp, 14 + payload.length]
  | .shortTagged inp _ _ rest => [inp, 14 + rest.length]
  | .tagged inp _ _ _ _ _ payload => [inp, 18 + payload.length]
  | .tag vid => [tagWord P vid]
  | .bcast inp => [bcastMac.toNat, inp, 0]
  | .known dm inp => [dm.toNat, inp, 1]
  | .unknown dm inp => [dm.toNat, inp, 0]
  | .aaFwd d vlan _ => [0, d, vlan.toNat, vlan.toNat]
  | .aaDrop d sv dv _ => [0, d, sv.toNat, dv.toNat]
  | .atTag d sv _ => [1, d, sv.toNat]
  | .taStrip d vlan _ => [2, d, vlan.toNat, 1, vlan.toNat]
  | .taDrop d dv vlanId _ => 2 :: d :: dv.toNat :: vlanIdFields vlanId
  | .ttFwd d _ => [3, d]
  | .decode _ len => [len]
  | .encodeTag v => [v]
  | .insertTag _ v => [v]
  | .stripTag _ => []
  | .learn sm inp => [sm.toNat, inp]
  | .lookup dm => [dm.toNat]
  | .candidates dm inp => [dm.toNat, inp]
  | .policy sk sv vlanId _ len d => kindCode sk :: sv.toNat :: (vlanIdFields vlanId ++ [len, d])
  | .process inp _ len => [inp, len]
  | .cfgWrite p valid kind vlan => [p, (cfgWord valid kind vlan).toNat]
  | .cfgRead p => [p]
  | .faultRead => []
  | .reset => []
  | .ok tf actions => (codeBits .ok).toNat :: bitCode tf :: actionFields actions
  | .malformed => [(codeBits .malformed).toNat, 0]
  | .unknownIngress tf => [(codeBits .unknownIngress).toNat, bitCode tf]
  | .unknownEgress tf => [(codeBits .unknownEgress).toNat, bitCode tf]
  | .tblFull => [1]
  | .portCfg p word => [p, word.toNat]

/-- The bytes of an operation. -/
def encodeBytes (P : Params) : Instr → Frame
  | i@(.short ..) | i@(.untagged ..) | i@(.shortTagged ..) | i@(.tagged ..) => frameBytes P i
  | .aaFwd _ _ F | .aaDrop _ _ _ F | .atTag _ _ F | .taStrip _ _ F | .taDrop _ _ _ F | .ttFwd _ F => F
  | .decode F _ | .insertTag F _ | .stripTag F | .policy _ _ _ F _ _ | .process _ F _ => F
  | .ok _ actions => actionBytes actions
  | .tag .. | .bcast .. | .known .. | .unknown .. | .encodeTag .. | .learn .. | .lookup .. | .candidates .. => []
  | .cfgWrite .. | .cfgRead .. | .faultRead | .reset | .malformed | .unknownIngress .. | .unknownEgress .. => []
  | .tblFull | .portCfg .. => []

/-- The transaction that carries an operation. -/
def encode (P : Params) (i : Instr) : Txn :=
  { line := i.line, fields := encodeFields P i, bytes := encodeBytes P i }

/-! ### The host's numbering of the table's words -/

/-- `n` bytes of a number whose bit 0 is the least significant bit of the first byte. DESIGN CHOICE (log entry 6): the spec
gives a 48-, 112- or 144-bit row no number (R81 numbers a header's bits from the most significant bit of byte 0, and
98_reader.md leaves the wide rows unread); inside a byte and inside every field the bits are R81's and R9's. -/
def bytesOfNat : Nat → Nat → Frame
  | 0, _ => []
  | n + 1, w => BitVec.ofNat 8 (w % 256) :: bytesOfNat n (w / 256)

/-- The transaction of a table row's bits `w`, the operands above them zero (log entry 6). Rows have words of
their own only in these formats: 2-bit policy codes (8 bits), 2-bit RESULT codes (given 16 bits by the reader's
field list), the 32-bit tag, the 48-bit DM, the 14- and 18-byte headers. A policy row's zero operand frame is the
shortest frame DECODE accepts, 14 zero bytes. -/
def tableTxn (nbits w : Nat) : Option Txn :=
  match nbits with
  | 8 =>
      match w with
      | 0 => some { line := .policyRow, fields := [0, 0, 0, 0], bytes := List.replicate 14 0#8 }
      | 1 => some { line := .policyRow, fields := [1, 0, 0], bytes := List.replicate 14 0#8 }
      | 2 => some { line := .policyRow, fields := [2, 0, 0, 0, 0], bytes := List.replicate 14 0#8 }
      | 3 => some { line := .policyRow, fields := [3, 0], bytes := List.replicate 14 0#8 }
      | _ => none
  | 16 => some { line := .result, fields := [w % 4, 0], bytes := [] }
  | 32 => some { line := .tagWord, fields := [w], bytes := [] }
  | 48 => some { line := .dest, fields := [(mac48 (bytesOfNat 6 w) 0).toNat, 0, 0], bytes := [] }
  | 112 => some { line := .rx, fields := [0, 14], bytes := bytesOfNat 14 w }
  | 144 => some { line := .rx, fields := [0, 18], bytes := bytesOfNat 18 w }
  | _ => none

/-- The RX transaction a RESULT row's table word answers (R32), which stands behind it in the queue: the empty frame for
the code MALFORMED, 14 zero bytes on port 0 for the others (log entry 6). -/
def tableRx (w : Nat) : Txn :=
  if w % 4 = 1 then { line := .rx, fields := [0, 0], bytes := [] }
  else { line := .rx, fields := [0, 14], bytes := List.replicate 14 0#8 }

/-- The operation the decoder reads from a table row's bits, for the parameters of the reset state. -/
def decodeTableWord (nbits w : Nat) : Option Instr :=
  match tableTxn nbits w with
  | some t =>
      match decode Params.initial t with
      | .ok i => some i
      | .error _ => none
  | none => none

end Sys2Proof
end

