-- ==== Sys2Proof/Machine/State.lean ====
section
/-! DEFINITION. The state of the block as plain data (spec/10_state.md), the events it emits, the reasons a step
can stop, and the reset state (R37). -/

namespace Sys2Proof.Machine

/-- One PORT_CFG register, 14 bits: `valid`, `kind`, `vlan` (R28). -/
structure PortCfg where
  valid : Bool
  kind : Kind
  vlan : VlanId
  deriving DecidableEq, Repr

/-- The abstract value of a valid register, the source's sum type (R28). -/
inductive PortConfig
  | access (vlan : VlanId)
  | trunk
  deriving DecidableEq, Repr

/-- What DECODE returns for a well-formed frame (R110); the VLAN id is an option (R22). -/
structure Header where
  dm : Mac
  sm : Mac
  et : Half
  vlanId : Option VlanId
  deriving DecidableEq, Repr

/-- The per-frame working registers (R21) and the iterator `d` (R24). `vlanId` holds TAGGED and VID. -/
structure Work where
  inp : Nat
  len : Nat
  dm : Mac
  sm : Mac
  et : Half
  vlanId : Option VlanId
  sk : Kind
  sv : VlanId
  d : Nat
  deriving DecidableEq, Repr

/-- What one step shows: a frame's RESULT and action list, a host read's value (R15), or the value an operation
called on its own returns (log entry 7). -/
inductive Event
  /-- RESULT `(code, tbl_full)` and the TX action list of one frame (R31, R32); only a PROCESS shows one. -/
  | frame (result : Result) (actions : List Action)
  /-- The value of CFG_READ (R177). -/
  | cfgRead (word : BitVec 14)
  /-- The value of FAULT_READ (R178). -/
  | faultRead (word : BitVec 4)
  /-- DECODE's result; `none` is Malformed (R110). -/
  | decoded (header : Option Header)
  /-- The byte sequence ENCODE_TAG, INSERT_TAG or STRIP_TAG returns (R111 to R113). -/
  | bytes (bytes : Frame)
  /-- LEARN's tbl_full (R130). -/
  | learned (tblFull : Bool)
  /-- LOOKUP's result (R131). -/
  | looked (port : Option Nat)
  /-- A candidate list (R150). -/
  | ports (ports : List Nat)
  /-- POLICY's result: one action, or none for Drop (R153). It is returned to the caller and not emitted on TX. -/
  | policy (action : Option Action)
  deriving DecidableEq, Repr

/-- Nothing stops the block with a fault: "no condition stops the block" (spec/93_implementation_defined.md, after
Part 1; R15, R16). The type has no constructor. The sticky FAULT bits are state. -/
inductive Fault
  deriving DecidableEq, Repr

/-- Why an operation has no next state. Every refusal is safe: no claim about a next state follows from it. -/
inductive Refusal
  /-- Raised by `exec`'s arm of an instruction that has no meaning yet. Safe. -/
  | notModelled (mnemonic : String)
  /-- Raised by `step` when the decoder rejects the transaction at the front of the queue. Safe. -/
  | undecodable (why : Reject)
  /-- U4, R30: raised by PROCESS, UNTAGGED and TAGGED when `len` is not the byte count or exceeds MAX_FRAME_BYTES.
  Safe. -/
  | rxContract
  /-- R16: raised by DECODE and POLICY when the length operand is not the byte count. Safe. -/
  | lengthMismatch
  /-- U2: raised by INSERT_TAG (and AT_TAG, POLICY) on a frame of fewer than 12 bytes. Safe. -/
  | insertShort
  /-- U1: raised by STRIP_TAG (and TA_STRIP, POLICY) on a frame that is not TAGGED. Safe. -/
  | stripUntagged
  /-- U3: raised by CFG_WRITE, CFG_READ and PORT_CFG when p >= NUM_PORTS. Safe. -/
  | noSuchRegister
  /-- Raised by a row of a decision table whose condition its operands, or the table TBL, do not meet, by a RESULT row
  when the RX transaction next in the queue does not end as the row says or there is none, and by POLICY for a candidate
  with no valid configuration; the spec gives no effect there (log entry 8). Safe. -/
  | rowNotSelected
  deriving DecidableEq, Repr

/-- The state: TBL, CFG, FAULT (R20), the working registers (R21, R24), the frame buffer (R50); the parameters
(R6), which no step changes; and the model's own `pending`, `out` and `free` (INVENTORY.md, "State"). -/
structure State where
  params : Params
  tbl : List (Mac × Nat)
  portCfg : List PortCfg
  fault : BitVec 4
  w : Work
  frame : Frame
  pending : List Txn
  out : List Event
  free : Nat
  deriving DecidableEq, Repr

/-- A port that was not written since the `n`-th reset: valid = 0, the rest free (R28, R37, U14). -/
def PortCfg.unspecified (n p : Nat) : PortCfg :=
  { valid := false, kind := Config.freePortKind n p, vlan := Config.freePortVlan n p }

/-- The working registers outside a PROCESS: free values of their widths (R23, U14). -/
def Work.unspecified (P : Params) (n : Nat) : Work :=
  { inp := Config.freeInp n % 2 ^ P.portW, len := Config.freeLen n % 2 ^ P.lenW, dm := Config.freeDm n,
    sm := Config.freeSm n, et := Config.freeEt n, vlanId := Config.freeVlanId n, sk := Config.freeSk n,
    sv := Config.freeSv n, d := Config.freeD n % 2 ^ P.portW }

/-- The reset state of R37 for parameters `P`, with the free values of index `n`; the counter stands at the next index,
so the first PROCESS leaves free values of its own (log entry 4). -/
def State.resetAt (P : Params) (n : Nat) : State :=
  { params := P, tbl := [], portCfg := (List.range P.numPorts).map (PortCfg.unspecified n), fault := 0#4,
    w := Work.unspecified P n, frame := [], pending := [], out := [], free := n + 1 }

/-- The machine right after reset (R37, R230), for the parameters of log entry 2. -/
def State.reset : State := State.resetAt Params.initial 0

end Sys2Proof.Machine
end

