-- ==== Sys2Proof/Machine/Flags.lean ====
section
/-! DEFINITION. The sticky FAULT register's bits (spec/10_state.md R29) and which RESULT code sets which
(spec/60_exceptions.md R200). -/

namespace Sys2Proof.Machine

/-- The FAULT bit paired with a RESULT code: [0] MALFORMED, [2] BAD_INGRESS, [3] BAD_EGRESS (R29, R200). -/
def faultBit : Code → BitVec 4
  | .ok => 0b0000#4
  | .malformed => 0b0001#4
  | .unknownIngress => 0b0100#4
  | .unknownEgress => 0b1000#4

/-- FAULT.TBL_FULL, bit [1] (R29). -/
def tblFullBit : BitVec 4 := 0b0010#4

/-- Sets sticky bits; no datapath rule clears one (R29). -/
def State.setFault (bits : BitVec 4) (s : State) : State := { s with fault := s.fault ||| bits }

end Sys2Proof.Machine
end

