-- ==== Sys2Proof/Machine/Operands.lean ====
section
/-! DEFINITION. The pure functions the operations apply to their operands: the codec (spec/40_codec.md), the
abstract port configuration (spec/10_state.md R28) and the VLAN policy table (spec/42_egress_mapper.md R153). -/

namespace Sys2Proof.Machine

/-- DECODE's function (R110), in the order of its pseudocode; `none` is Malformed. -/
def decodeHeader (P : Params) (F : Frame) : Option Header :=
  if F.length < 14 then none
  else
    let cand := be16 (byteAt F 12) (byteAt F 13)
    if cand = P.tpid then
      if F.length < 18 then none
      else
        some { dm := mac48 F 0, sm := mac48 F 6, et := be16 (byteAt F 16) (byteAt F 17),
               vlanId := some (tciVid (be16 (byteAt F 14) (byteAt F 15))) }
    else some { dm := mac48 F 0, sm := mac48 F 6, et := cand, vlanId := none }

/-- TAGGED in the sense of R88: at least 18 bytes and TPID at offset 12. -/
def isTagged (P : Params) (F : Frame) : Bool :=
  decide (18 ≤ F.length) && decide (be16 (byteAt F 12) (byteAt F 13) = P.tpid)

/-- ENCODE_TAG's function (R111): `vlan_id & 0xFFF` under the TPID, upper four TCI bits zero. -/
def encodeTag (P : Params) (vlanId : Nat) : Frame := bytes16 P.tpid ++ bytes16 (BitVec.ofNat 16 (vlanId % 4096))

/-- INSERT_TAG's function (R112); a frame of fewer than 12 bytes is refused (U2). -/
def insertTag (P : Params) (F : Frame) (vlanId : Nat) : Except Refusal Frame :=
  if 12 ≤ F.length then .ok (F.take 12 ++ encodeTag P vlanId ++ F.drop 12) else .error .insertShort

/-- STRIP_TAG's function (R113); a frame that is not TAGGED is refused (U1). -/
def stripTag (P : Params) (F : Frame) : Except Refusal Frame :=
  if isTagged P F then .ok (F.take 12 ++ F.drop 16) else .error .stripUntagged

/-- `CFG[p]` of a register that is valid (R28). A Trunk port's vlan field is dropped. -/
def PortCfg.view (c : PortCfg) : PortConfig :=
  match c.kind with
  | .access => .access c.vlan
  | .trunk => .trunk

/-- POLICY (R153): `none` is Drop, `some (bytes, length)` is Forward. -/
def policyOut (P : Params) (sk : Kind) (sv : VlanId) (cfg : PortConfig) (vlanId : Option VlanId) (F : Frame)
    (len : Nat) : Except Refusal (Option (Frame × Nat)) :=
  match sk, cfg with
  | .access, .access dv => .ok (if dv = sv then some (F, len) else none)
  | .access, .trunk =>
      match insertTag P F sv.toNat with
      | .ok F' => .ok (some (F', len + 4))
      | .error why => .error why
  | .trunk, .access dv =>
      if vlanId = some dv then
        match stripTag P F with
        | .ok F' => .ok (some (F', len - 4))
        | .error why => .error why
      else .ok none
  | .trunk, .trunk => .ok (some (F, len))

/-- The action a policy result yields for the candidate port `d` (R153: "Each non-dropped candidate yields one
FrameAction"). -/
def toAction (d : Nat) : Option (Frame × Nat) → Option Action
  | none => none
  | some (bytes, length) => some { port := d, bytes := bytes, length := length }

end Sys2Proof.Machine
end

