-- ==== Sys2Proof/Machine/Ops.lean ====
section
/-! DEFINITION. The named operations over the state: writing a field, the MAC table as a canonical map
(spec/41_mac_table.md), the configuration registers (spec/10_state.md R28, R34), the candidate set
(spec/42_egress_mapper.md R150), ending a frame with a result and taking an error outcome
(spec/60_exceptions.md R206), and the free values a finished frame leaves behind. -/

namespace Sys2Proof.Machine

/-! ### Writing a field -/

def State.setTbl (t : List (Mac × Nat)) (s : State) : State := { s with tbl := t }
def State.setPortCfg (c : List PortCfg) (s : State) : State := { s with portCfg := c }
def State.setWork (w : Work) (s : State) : State := { s with w := w }
def State.setFrame (F : Frame) (s : State) : State := { s with frame := F }
def State.setPending (q : List Txn) (s : State) : State := { s with pending := q }

/-- Adds one event to what the block has shown. -/
def State.emit (e : Event) (s : State) : State := { s with out := s.out ++ [e] }

/-- Advances the free-value counter. -/
def State.tick (s : State) : State := { s with free := s.free + 1 }

/-! ### The MAC table -/

/-- The canonical form of TBL: addresses strictly rising, so one port per MAC (R26a) and equal maps are equal
lists. An address not listed reads as none. -/
abbrev Tbl.wf (t : List (Mac × Nat)) : Prop := t.Pairwise (fun a b => a.1.toNat < b.1.toNat)

/-- `TBL[m]` (R10, R131): exact match on all 48 bits. -/
def Tbl.lookup : List (Mac × Nat) → Mac → Option Nat
  | [], _ => none
  | (k, p) :: rest, m => if k = m then some p else Tbl.lookup rest m

/-- `TBL[m] <- p`: overwrites the entry of `m` or adds one at its place. -/
def Tbl.write : List (Mac × Nat) → Mac → Nat → List (Mac × Nat)
  | [], m, p => [(m, p)]
  | (k, q) :: rest, m, p =>
      if m.toNat < k.toNat then (m, p) :: (k, q) :: rest
      else if k = m then (m, p) :: rest
      else (k, q) :: Tbl.write rest m p

/-- `count(TBL) < TABLE_DEPTH`; always so when TABLE_DEPTH is INF (R130). -/
def hasRoom (P : Params) (t : List (Mac × Nat)) : Bool :=
  match P.tableDepth with
  | none => true
  | some depth => decide (t.length < depth)

/-- LEARN (R130): the new state and tbl_full. -/
def learn (sm : Mac) (inp : Nat) (s : State) : State × Bool :=
  match Tbl.lookup s.tbl sm with
  | some _ => (s.setTbl (Tbl.write s.tbl sm inp), false)
  | none =>
      if hasRoom s.params s.tbl then (s.setTbl (Tbl.write s.tbl sm inp), false)
      else (s.setFault tblFullBit, true)

/-! ### The configuration registers -/

/-- The host-visible registers (R34). -/
inductive HostReg
  | portCfg (p : Nat)
  | fault
  deriving DecidableEq, Repr

/-- Register number p < NUM_PORTS is PORT_CFG[p], number NUM_PORTS is FAULT (R34). -/
def hostReg (P : Params) (n : Nat) : Option HostReg :=
  if n < P.numPorts then some (.portCfg n) else if n = P.numPorts then some .fault else none

/-- PORT_CFG[p], where `p` names a port (R28: `CFG[p]` for p >= NUM_PORTS is none). -/
def portCfgAt (s : State) (p : Nat) : Option PortCfg :=
  if p < s.params.numPorts then s.portCfg[p]? else none

/-- PORT_CFG[p] where it is valid; `none` is "absent from the configuration" (R28, R203, R204). -/
def validCfg (s : State) (p : Nat) : Option PortCfg :=
  match portCfgAt s p with
  | some c => if c.valid then some c else none
  | none => none

/-- Writes all 14 bits of PORT_CFG[p] at once (R55, R176); the register must exist (U3). -/
def writePortCfg (p : Nat) (c : PortCfg) (s : State) : Host.Outcome State Fault Refusal :=
  match hostReg s.params p with
  | some (.portCfg p) => .next (s.setPortCfg (s.portCfg.set p c))
  | some .fault => .refused .noSuchRegister
  | none => .refused .noSuchRegister

/-- The 14-bit word of PORT_CFG[p] (R94, R177); the register must exist (U3). -/
def readPortCfg (p : Nat) (s : State) : Except Refusal (BitVec 14) :=
  match hostReg s.params p with
  | some (.portCfg p) =>
      match s.portCfg[p]? with
      | some c => .ok (cfgWord c.valid c.kind c.vlan)
      | none => .error .noSuchRegister
  | some .fault => .error .noSuchRegister
  | none => .error .noSuchRegister

/-! ### The candidate set -/

/-- "every port except the ingress port", ascending, whether or not configured (R150). -/
def flood (P : Params) (inp : Nat) : List Nat := (List.range P.numPorts).filter (fun p => decide (p ≠ inp))

/-- The candidate list of a hit on port `h` (R150, R151). -/
def hitList (P : Params) (h inp : Nat) : List Nat :=
  if h ≠ inp then [h]
  else
    match P.samePortHit with
    | .drop => []
    | .reflect => [inp]

/-- CANDIDATES (R150): the broadcast test comes first and bypasses the table (R138). -/
def candidateList (s : State) (dm : Mac) (inp : Nat) : List Nat :=
  if dm = bcastMac then flood s.params inp
  else
    match Tbl.lookup s.tbl dm with
    | none => flood s.params inp
    | some h => hitList s.params h inp

/-! ### Ending a frame -/

/-- Taking an error outcome, the block's exception entry (R206): the FAULT bit paired with the code is set, the
RESULT value is returned, no action is emitted, and every earlier change of state stays. Nothing is saved and no
control goes anywhere; the block is ready for the next transaction (R208: there is no return). -/
def fail (code : Code) (tblFull : Bool) (s : State) : State :=
  (s.setFault (faultBit code)).emit (.frame { code := code, tblFull := tblFull } [])

/-- Phase 6: RESULT (OK, tf) and the action list (R170). -/
def finish (tblFull : Bool) (actions : List Action) (s : State) : State :=
  s.emit (.frame { code := .ok, tblFull := tblFull } actions)

/-- After a PROCESS the working registers have no value and the frame buffer's content is unspecified (R23, R50):
both are left at free values. -/
def endFrame (s : State) : State :=
  ((s.setWork (Work.unspecified s.params s.free)).setFrame
    ((Config.freeFrame s.free).take s.params.maxFrameBytes)).tick

end Sys2Proof.Machine
end

