-- ==== Sys2Proof/Machine/HostOps.lean ====
section
/-! DEFINITION. The host operations (spec/43_process_and_host.md R176 to R179) and the PORT_CFG register word
(spec/30_encoding.md R94). -/

namespace Sys2Proof.Machine

/-- CFG_WRITE (R176): all 14 bits of one register; TBL and FAULT are untouched. -/
def execCfgWrite (p : Nat) (valid : Bool) (kind : Kind) (vlan : VlanId) (s : State) :
    Host.Outcome State Fault Refusal :=
  writePortCfg p { valid := valid, kind := kind, vlan := vlan } s

/-- PORT_CFG (R94): the register word, written whole. -/
def execPortCfg (p : Nat) (word : BitVec 14) (s : State) : Host.Outcome State Fault Refusal :=
  writePortCfg p { valid := wordValid word, kind := wordKind word, vlan := wordVlan word } s

/-- CFG_READ (R177). -/
def execCfgRead (p : Nat) (s : State) : Host.Outcome State Fault Refusal :=
  match readPortCfg p s with
  | .ok word => .next (s.emit (.cfgRead word))
  | .error why => .refused why

/-- FAULT_READ (R178): reading clears nothing. -/
def execFaultRead (s : State) : Host.Outcome State Fault Refusal := .next (s.emit (.faultRead s.fault))

/-- RESET (R179): the reset state of R37 for the same parameters. What the environment has yet to present and what
was already observed are not state of the block and stay. -/
def execReset (s : State) : Host.Outcome State Fault Refusal :=
  .next { State.resetAt s.params s.free with pending := s.pending, out := s.out }

end Sys2Proof.Machine
end

