-- ==== Sys2Proof/Machine/Mapper.lean ====
section
/-! DEFINITION. The egress mapper called on its own (spec/42_egress_mapper.md): CANDIDATES and its destination
classes (spec/30_encoding.md R91), POLICY and its six rows (R92). -/

namespace Sys2Proof.Machine

/-- CANDIDATES (R150). DESIGN CHOICE (log entry 11): R150's ingress port is one with a valid configuration; called on
its own with any other, the list is computed all the same. -/
def execCandidates (dm : Mac) (inp : Nat) (s : State) : Host.Outcome State Fault Refusal :=
  .next (s.emit (.ports (candidateList s dm inp)))

/-- BCAST (R91): every port except the ingress port, whatever that port's configuration (log entry 11); the table is
not consulted. -/
def execBcast (inp : Nat) (s : State) : Host.Outcome State Fault Refusal :=
  .next (s.emit (.ports (flood s.params inp)))

/-- KNOWN (R91, R151): the row is selected when DM is not broadcast and TBL[DM] is a port. -/
def execKnown (dm : Mac) (inp : Nat) (s : State) : Host.Outcome State Fault Refusal :=
  if dm = bcastMac then .refused .rowNotSelected
  else
    match Tbl.lookup s.tbl dm with
    | some h => .next (s.emit (.ports (hitList s.params h inp)))
    | none => .refused .rowNotSelected

/-- UNKNOWN (R91): the row is selected when DM is not broadcast and TBL[DM] is none. -/
def execUnknown (dm : Mac) (inp : Nat) (s : State) : Host.Outcome State Fault Refusal :=
  if dm = bcastMac then .refused .rowNotSelected
  else
    match Tbl.lookup s.tbl dm with
    | some _ => .refused .rowNotSelected
    | none => .next (s.emit (.ports (flood s.params inp)))

/-- Returns the action of a policy result for port `d`, or none for Drop. -/
def returnPolicy (d : Nat) (r : Except Refusal (Option (Frame × Nat))) (s : State) :
    Host.Outcome State Fault Refusal :=
  match r with
  | .ok a => .next (s.emit (.policy (toAction d a)))
  | .error why => .refused why

/-- POLICY (R153) for a candidate port with a valid configuration. DESIGN CHOICE (log entry 11): the VLAN id is the
operand, which nothing compares with the tag in `F`. -/
def execPolicy (sk : Kind) (sv : VlanId) (vlanId : Option VlanId) (F : Frame) (len d : Nat) (s : State) :
    Host.Outcome State Fault Refusal :=
  if len = F.length then
    match validCfg s d with
    | some c => returnPolicy d (policyOut s.params sk sv c.view vlanId F len) s
    | none => .refused .rowNotSelected
  else .refused .lengthMismatch

/-- AA_FWD (R154): both Access, one VLAN. DESIGN CHOICE (log entry 11), for this row and the five after it: the row's
operands stand for the two ports' configurations, so CFG[d] is not consulted, and `d` may be any port. -/
def execAaFwd (d : Nat) (vlan : VlanId) (F : Frame) (s : State) : Host.Outcome State Fault Refusal :=
  returnPolicy d (policyOut s.params .access vlan (.access vlan) none F F.length) s

/-- AA_DROP (R154): both Access, two VLANs. -/
def execAaDrop (d : Nat) (sv dv : VlanId) (F : Frame) (s : State) : Host.Outcome State Fault Refusal :=
  if dv = sv then .refused .rowNotSelected
  else returnPolicy d (policyOut s.params .access sv (.access dv) none F F.length) s

/-- AT_TAG (R155). -/
def execAtTag (d : Nat) (sv : VlanId) (F : Frame) (s : State) : Host.Outcome State Fault Refusal :=
  returnPolicy d (policyOut s.params .access sv .trunk none F F.length) s

/-- TA_STRIP (R156): the frame is TAGGED with the egress port's VLAN; the ingress port's own vlan is not read.
DESIGN CHOICE (log entry 11): `vlan` stands for the port's VLAN and for VID at once; the tag in `F`, if it holds another
VID, is stripped all the same. -/
def execTaStrip (d : Nat) (vlan : VlanId) (F : Frame) (s : State) : Host.Outcome State Fault Refusal :=
  returnPolicy d (policyOut s.params .trunk 0#12 (.access vlan) (some vlan) F F.length) s

/-- TA_DROP (R156): untagged, or another VLAN. DESIGN CHOICE (log entry 11): that is said by the operand `vlanId`, which
nothing compares with the tag in `F`. -/
def execTaDrop (d : Nat) (dv : VlanId) (vlanId : Option VlanId) (F : Frame) (s : State) :
    Host.Outcome State Fault Refusal :=
  if vlanId = some dv then .refused .rowNotSelected
  else returnPolicy d (policyOut s.params .trunk 0#12 (.access dv) vlanId F F.length) s

/-- TT_FWD (R157). -/
def execTtFwd (d : Nat) (F : Frame) (s : State) : Host.Outcome State Fault Refusal :=
  returnPolicy d (policyOut s.params .trunk 0#12 .trunk none F F.length) s

end Sys2Proof.Machine
end

