-- ==== Sys2Proof/Machine/Codec.lean ====
section
/-! DEFINITION. The Frame Codec called on its own (spec/40_codec.md): DECODE, ENCODE_TAG, INSERT_TAG, STRIP_TAG,
and the row TAG, the 32-bit word ENCODE_TAG produces. -/

namespace Sys2Proof.Machine

/-- Returns a byte sequence, or the refusal of an unmet precondition. -/
def returnBytes (r : Except Refusal Frame) (s : State) : Host.Outcome State Fault Refusal :=
  match r with
  | .ok F => .next (s.emit (.bytes F))
  | .error why => .refused why

/-- A decoded header written to the working registers `w.DM`, `w.SM`, `w.ET`, `w.TAGGED`, `w.VID` (R21, R110). -/
def latchHeader (h : Header) (s : State) : State :=
  s.setWork { s.w with dm := h.dm, sm := h.sm, et := h.et, vlanId := h.vlanId }

/-- DECODE (R110): the header to the working registers, or Malformed; it sets no flag. DESIGN CHOICE (log entry 4): what it
writes, called on its own, stays until the next PROCESS or RESET, where U14 leaves a working register any value outside
a PROCESS. -/
def execDecode (F : Frame) (len : Nat) (s : State) : Host.Outcome State Fault Refusal :=
  if len = F.length then
    match decodeHeader s.params F with
    | some h => .next ((latchHeader h s).emit (.decoded (some h)))
    | none => .next (s.emit (.decoded none))
  else .refused .lengthMismatch

/-- ENCODE_TAG (R111), total. -/
def execEncodeTag (vlanId : Nat) (s : State) : Host.Outcome State Fault Refusal :=
  .next (s.emit (.bytes (encodeTag s.params vlanId)))

/-- INSERT_TAG (R112). -/
def execInsertTag (F : Frame) (vlanId : Nat) (s : State) : Host.Outcome State Fault Refusal :=
  returnBytes (insertTag s.params F vlanId) s

/-- STRIP_TAG (R113). -/
def execStripTag (F : Frame) (s : State) : Host.Outcome State Fault Refusal :=
  returnBytes (stripTag s.params F) s

/-- The four bytes of a 32-bit word, first byte = bits 31..24 (R52, the table's row TAG). -/
def bytes32 (w : Nat) : Frame :=
  bytes16 (BitVec.ofNat 16 (w / 65536)) ++ bytes16 (BitVec.ofNat 16 (w % 65536))

/-- TAG (R86, R111): the tag word of a VLAN id, as its four bytes. -/
def execTag (vid : VlanId) (s : State) : Host.Outcome State Fault Refusal :=
  .next (s.emit (.bytes (bytes32 (tagWord s.params vid))))

end Sys2Proof.Machine
end

