-- ==== Sys2Proof/Machine/Process.lean ====
section
/-! DEFINITION. PROCESS, one received frame from RX to RESULT and TX in the six phases of
spec/43_process_and_host.md R170, and the frame classes of spec/30_encoding.md R88, whose effect is the PROCESS of
the frame they stand for. -/

namespace Sys2Proof.Machine

/-- The RX transaction fills the frame buffer, `w.INP` and `w.LEN` (R21, R50). -/
def rxAccept (inp : Nat) (F : Frame) (s : State) : State :=
  (s.setFrame F).setWork { s.w with inp := inp, len := F.length }

/-- The ingress configuration lookup writes `w.SK`, `w.SV` (R21). -/
def latchIngress (c : PortCfg) (s : State) : State := s.setWork { s.w with sk := c.kind, sv := c.vlan }

/-- The iterator of phase 5 (R24). -/
def latchEgress (d : Nat) (s : State) : State := s.setWork { s.w with d := d }

/-- POLICY for the candidate the iterator holds, on the received frame (R67, R153). PROCESS has checked that its
configuration is valid; no action comes of one that is not. -/
def policyAt (s : State) : Except Refusal (Option Action) :=
  match validCfg s s.w.d with
  | none => .ok none
  | some c =>
      match policyOut s.params s.w.sk s.w.sv c.view s.w.vlanId s.frame s.w.len with
      | .ok a => .ok (toAction s.w.d a)
      | .error why => .error why

/-- The actions of the candidates, in their order (R172). -/
def actionsOf (s : State) : List Nat → Except Refusal (List Action)
  | [] => .ok []
  | d :: rest =>
      match policyAt (latchEgress d s), actionsOf s rest with
      | .ok a, .ok actions => .ok (a.toList ++ actions)
      | .error why, _ => .error why
      | .ok _, .error why => .error why

/-- Phase 5 (R170): every candidate's configuration is checked before any action is built (R173). -/
def phase5 (tblFull : Bool) (candidates : List Nat) (s : State) : Host.Outcome State Fault Refusal :=
  if candidates.all (fun d => (validCfg s d).isSome) then
    match actionsOf s candidates with
    | .ok actions => .next (endFrame (finish tblFull actions s))
    | .error why => .refused why
  else .next (endFrame (fail .unknownEgress tblFull s))

/-- Phases 3 to 6 (R170), after the frame's own LEARN (R174). -/
def phase3 (tblFull : Bool) (s : State) : Host.Outcome State Fault Refusal :=
  match validCfg s s.w.inp with
  | none => .next (endFrame (fail .unknownIngress tblFull s))
  | some c =>
      phase5 tblFull (candidateList (latchIngress c s) (latchIngress c s).w.dm (latchIngress c s).w.inp)
        (latchIngress c s)

/-- Phase 2 (R130, R140): learn the source address on the ingress port. -/
def phase2 (s : State) : Host.Outcome State Fault Refusal :=
  phase3 (learn s.w.sm s.w.inp s).2 (learn s.w.sm s.w.inp s).1

/-- Phase 1 (R110, R201): a malformed frame ends here, with nothing learned. -/
def phase1 (s : State) : Host.Outcome State Fault Refusal :=
  match decodeHeader s.params s.frame with
  | none => .next (endFrame (fail .malformed false s))
  | some h => phase2 (latchHeader h s)

/-- The processing of one received frame within the RX contract (R30). -/
def receive (inp : Nat) (F : Frame) (s : State) : Host.Outcome State Fault Refusal :=
  if F.length ≤ s.params.maxFrameBytes then phase1 (rxAccept inp F s) else .refused .rxContract

/-- PROCESS (R170, R171): the length operand is the byte count, or the transaction is outside the spec (U4). -/
def execProcess (inp : Nat) (F : Frame) (len : Nat) (s : State) : Host.Outcome State Fault Refusal :=
  if len = F.length then receive inp F s else .refused .rxContract

/-- SHORT (R88). -/
def execShort (inp : Nat) (F : Frame) (s : State) : Host.Outcome State Fault Refusal :=
  if F.length < 14 then receive inp (frameBytes s.params (.short inp F)) s else .refused .rowNotSelected

/-- UNTAGGED (R81, R88). -/
def execUntagged (inp : Nat) (dm sm : Mac) (et : Half) (payload : Frame) (s : State) :
    Host.Outcome State Fault Refusal :=
  if et = s.params.tpid then .refused .rowNotSelected
  else receive inp (frameBytes s.params (.untagged inp dm sm et payload)) s

/-- SHORT_TAGGED (R88). -/
def execShortTagged (inp : Nat) (dm sm : Mac) (rest : Frame) (s : State) : Host.Outcome State Fault Refusal :=
  if rest.length < 4 then receive inp (frameBytes s.params (.shortTagged inp dm sm rest)) s
  else .refused .rowNotSelected

/-- TAGGED (R82, R88). -/
def execTagged (inp : Nat) (dm sm : Mac) (pri : BitVec 4) (vid : VlanId) (et : Half) (payload : Frame) (s : State) :
    Host.Outcome State Fault Refusal :=
  receive inp (frameBytes s.params (.tagged inp dm sm pri vid et payload)) s

end Sys2Proof.Machine
end

