-- ==== Sys2Proof/Machine/Results.lean ====
section
/-! DEFINITION. The RESULT rows (spec/60_exceptions.md R200 to R206). "Every RX transaction is answered by exactly one
RESULT value" (R32): a row is the PROCESS of the RX transaction next in the queue, where that PROCESS ends as the row
says, so that nothing but a PROCESS reports a RESULT, sets its FAULT bit or emits an action (R13, R15, R29, R31; log
entry 9). -/

namespace Sys2Proof.Machine

/-- The RX transaction at the front of the queue, within the contract of R30: port, frame, and the queue behind it. -/
def nextRx (s : State) : Option (Nat × Frame × List Txn) :=
  match s.pending with
  | [] => none
  | t :: rest =>
      match t.line, t.fields, decode s.params t with
      | .rx, [inp, _], .ok _ => some (inp, t.bytes, rest)
      | _, _, _ => none

/-- The RESULT and actions at the end of a trace. -/
def lastFrame (out : List Event) : Option (Result × List Action) :=
  match out.getLast? with
  | some (.frame r actions) => some (r, actions)
  | _ => none

/-- The PROCESS of the RX transaction next in the queue, where it ends as the row says; where it ends otherwise, or
there is none, the row is not selected. -/
def reporting (row : Result → List Action → Bool) (s : State) : Host.Outcome State Fault Refusal :=
  match nextRx s with
  | none => .refused .rowNotSelected
  | some (inp, F, rest) =>
      match receive inp F (s.setPending rest) with
      | .next t => if (lastFrame t.out).any (fun e => row e.1 e.2) then .next t else .refused .rowNotSelected
      | .fault f => .fault f
      | .refused why => .refused why

/-- OK (R200): the frame is processed by the rules, and the actions are those computed. -/
def execOk (tblFull : Bool) (actions : List Action) (s : State) : Host.Outcome State Fault Refusal :=
  reporting (fun r a => decide (r = { code := .ok, tblFull := tblFull }) && decide (a = actions)) s

/-- MALFORMED (R201): tbl_full is 0 with this code. -/
def execMalformed (s : State) : Host.Outcome State Fault Refusal :=
  reporting (fun r _ => decide (r = { code := .malformed, tblFull := false })) s

/-- UNKNOWN_INGRESS (R203). -/
def execUnknownIngress (tblFull : Bool) (s : State) : Host.Outcome State Fault Refusal :=
  reporting (fun r _ => decide (r = { code := .unknownIngress, tblFull := tblFull })) s

/-- UNKNOWN_EGRESS (R204). -/
def execUnknownEgress (tblFull : Bool) (s : State) : Host.Outcome State Fault Refusal :=
  reporting (fun r _ => decide (r = { code := .unknownEgress, tblFull := tblFull })) s

/-- TBL_FULL (R134, R202): the frame whose LEARN of a new address found the table full, with whatever code it ends. -/
def execTblFull (s : State) : Host.Outcome State Fault Refusal := reporting (fun r _ => r.tblFull) s

end Sys2Proof.Machine
end

