-- ==== Sys2Proof/Machine/Table.lean ====
section
/-! DEFINITION. The MAC learning table called on its own (spec/41_mac_table.md): LEARN, LOOKUP. -/

namespace Sys2Proof.Machine

/-- LEARN (R130), returning tbl_full. -/
def execLearn (sm : Mac) (inp : Nat) (s : State) : Host.Outcome State Fault Refusal :=
  .next ((learn sm inp s).1.emit (.learned (learn sm inp s).2))

/-- LOOKUP (R131); called with the broadcast address it returns what TBL holds (R138). -/
def execLookup (dm : Mac) (s : State) : Host.Outcome State Fault Refusal :=
  .next (s.emit (.looked (Tbl.lookup s.tbl dm)))

end Sys2Proof.Machine
end

