-- ==== Sys2Proof/Machine/Dispatch.lean ====
section
/-! DEFINITION. One arm per constructor of Instr. -/

namespace Sys2Proof.Machine

def exec (i : Instr) (s : State) : Host.Outcome State Fault Refusal :=
  match i with
  | .short inp F => Sys2Proof.Machine.execShort inp F s
  | .untagged inp dm sm et payload => Sys2Proof.Machine.execUntagged inp dm sm et payload s
  | .shortTagged inp dm sm rest => Sys2Proof.Machine.execShortTagged inp dm sm rest s
  | .tagged inp dm sm pri vid et payload => Sys2Proof.Machine.execTagged inp dm sm pri vid et payload s
  | .tag vid => Sys2Proof.Machine.execTag vid s
  | .bcast inp => Sys2Proof.Machine.execBcast inp s
  | .known dm inp => Sys2Proof.Machine.execKnown dm inp s
  | .unknown dm inp => Sys2Proof.Machine.execUnknown dm inp s
  | .aaFwd d vlan F => Sys2Proof.Machine.execAaFwd d vlan F s
  | .aaDrop d sv dv F => Sys2Proof.Machine.execAaDrop d sv dv F s
  | .atTag d sv F => Sys2Proof.Machine.execAtTag d sv F s
  | .taStrip d vlan F => Sys2Proof.Machine.execTaStrip d vlan F s
  | .taDrop d dv vlanId F => Sys2Proof.Machine.execTaDrop d dv vlanId F s
  | .ttFwd d F => Sys2Proof.Machine.execTtFwd d F s
  | .decode F len => Sys2Proof.Machine.execDecode F len s
  | .encodeTag vlanId => Sys2Proof.Machine.execEncodeTag vlanId s
  | .insertTag F vlanId => Sys2Proof.Machine.execInsertTag F vlanId s
  | .stripTag F => Sys2Proof.Machine.execStripTag F s
  | .learn sm inp => Sys2Proof.Machine.execLearn sm inp s
  | .lookup dm => Sys2Proof.Machine.execLookup dm s
  | .candidates dm inp => Sys2Proof.Machine.execCandidates dm inp s
  | .policy sk sv vlanId F len d => Sys2Proof.Machine.execPolicy sk sv vlanId F len d s
  | .process inp F len => Sys2Proof.Machine.execProcess inp F len s
  | .cfgWrite p valid kind vlan => Sys2Proof.Machine.execCfgWrite p valid kind vlan s
  | .cfgRead p => Sys2Proof.Machine.execCfgRead p s
  | .faultRead => Sys2Proof.Machine.execFaultRead s
  | .reset => Sys2Proof.Machine.execReset s
  | .ok tblFull actions => Sys2Proof.Machine.execOk tblFull actions s
  | .malformed => Sys2Proof.Machine.execMalformed s
  | .unknownIngress tblFull => Sys2Proof.Machine.execUnknownIngress tblFull s
  | .unknownEgress tblFull => Sys2Proof.Machine.execUnknownEgress tblFull s
  | .tblFull => Sys2Proof.Machine.execTblFull s
  | .portCfg p word => Sys2Proof.Machine.execPortCfg p word s

end Sys2Proof.Machine
end

