-- ==== Sys2Proof/Machine/Step.lean ====
section
/-! DEFINITION. One step of the machine: the transaction at the front of the queue, decoded and executed
(spec/00_scope.md R13, R15; spec/20_memory.md R61, R62). -/

namespace Sys2Proof.Machine

/-- One step. With nothing pending the block "is idle and holds its state" (R213). -/
def step (s : State) : Host.Outcome State Fault Refusal :=
  match s.pending with
  | [] => .next s
  | t :: rest =>
      match decode s.params t with
      | .ok i => exec i (s.setPending rest)
      | .error why => .refused (.undecodable why)

/-- `s` with the transaction of a table word at the front of the queue, so that the next step takes it (log entry
6); behind a RESULT row's word stands the RX transaction it answers. A word that is no table word is put there as an
empty RX transaction, which the decoder rejects. -/
def State.withFetchWord (s : State) (nbits w : Nat) : State :=
  match tableTxn nbits w with
  | some t =>
      match t.line with
      | .result => s.setPending (t :: tableRx w :: s.pending)
      | _ => s.setPending (t :: s.pending)
  | none => s.setPending ({ line := .rx, fields := [], bytes := [] } :: s.pending)

end Sys2Proof.Machine
end

