-- ==== Sys2Proof/Safety.lean ====
section
/-! DEFINITION. What a good state is, and the premises claims about the block take (spec/10_state.md R26;
spec/60_exceptions.md R202; spec/70_reset_and_hazards.md R232). -/

namespace Sys2Proof.Machine

/-- The invariant of the model: legal parameters (R6); TBL in canonical form, at most TABLE_DEPTH addresses, every
stored port a PORT_W-bit value (R25, R26); one configuration register per port (R28); the numeric working registers
and the frame buffer within their widths (R21, R50). -/
structure State.Inv (s : State) : Prop where
  legal : s.params.legal = true
  tblWf : Tbl.wf s.tbl
  tblDepth : ∀ depth, s.params.tableDepth = some depth → s.tbl.length ≤ depth
  tblPorts : ∀ e ∈ s.tbl, e.2 < 2 ^ s.params.portW
  cfgLength : s.portCfg.length = s.params.numPorts
  inpFits : s.w.inp < 2 ^ s.params.portW
  lenFits : s.w.len < 2 ^ s.params.lenW
  dFits : s.w.d < 2 ^ s.params.portW
  frameFits : s.frame.length ≤ s.params.maxFrameBytes

/-- "boot complete" (R232): for all p < NUM_PORTS, CFG[p] is not none. -/
def State.bootComplete (s : State) : Prop := ∀ p, p < s.params.numPorts → (validCfg s p).isSome = true

/-- The premise FAULT.TBL_FULL = 0 (R134, R202). -/
def State.neverFull (s : State) : Prop := s.fault &&& tblFullBit = 0#4

/-- The lines of the two agents of R13: the datapath's, whose step is one PROCESS (an RX transaction, or the RESULT
that answers the RX transaction behind it), and the host's. The other lines carry operations called on their own,
which no agent of the block does (R2, R211, R242). -/
def agentLine : Line → Bool
  | .rx | .process | .result | .tblFull => true
  | .cfgWrite | .portCfg | .cfgRead | .faultRead | .reset => true
  | .tagWord | .dest | .policyRow => false
  | .decode | .encodeTag | .insertTag | .stripTag | .learn | .lookup | .candidates | .policy => false

/-- The block takes part in a run of R15: nothing but the agents' transactions is presented to it. The premise under
which a step of the model is a step of R13. -/
def State.agentsOnly (s : State) : Prop := ∀ t ∈ s.pending, agentLine t.line = true

/-- The RX transaction of frame `F` on port `inp`, within the contract of R30, is next in the queue, before `rest`. -/
def State.receivesNext (s : State) (inp : Nat) (F : Frame) (rest : List Txn) : Prop :=
  s.pending = { line := .rx, fields := [inp, F.length], bytes := F } :: rest ∧ inp < 2 ^ s.params.portW ∧
    F.length ≤ s.params.maxFrameBytes

/-- A register that holds the port configuration `Access(v)` or `Trunk` (R28). -/
def State.holds (s : State) (p : Nat) (cfg : PortConfig) : Prop :=
  (validCfg s p).map PortCfg.view = some cfg

/-! ### The spec's values in the terms of its rules, apart from the functions the machine computes them with -/

/-- The 16-bit big-endian field at offset `a`: `F[a] * 256 + F[a+1]` (R51). -/
def halfAt (F : Frame) (a : Nat) : Nat := (byteAt F a).toNat * 256 + (byteAt F (a + 1)).toNat

/-- The 48-bit number whose most significant byte is `F[a]` and least significant `F[a+5]` (R9). -/
def macAt (F : Frame) (a : Nat) : Nat :=
  (byteAt F a).toNat * 2 ^ 40 + (byteAt F (a + 1)).toNat * 2 ^ 32 + (byteAt F (a + 2)).toNat * 2 ^ 24 +
    (byteAt F (a + 3)).toNat * 2 ^ 16 + (byteAt F (a + 4)).toNat * 2 ^ 8 + (byteAt F (a + 5)).toNat

/-- The four tag bytes `(TPID[15:8], TPID[7:0], 0x0 : vlan[11:8], vlan[7:0])` (R86). -/
def tagBytes (P : Params) (vlanId : Nat) : Frame :=
  [BitVec.ofNat 8 (P.tpid.toNat / 256), BitVec.ofNat 8 P.tpid.toNat,
   BitVec.ofNat 8 (vlanId % 4096 / 256), BitVec.ofNat 8 (vlanId % 4096)]

/-- The causes of MALFORMED (R201): too short, or TPID at offset 12 and shorter than 18 bytes. -/
def isMalformed (P : Params) (F : Frame) : Prop :=
  F.length < 14 ∨ (halfAt F 12 = P.tpid.toNat ∧ F.length < 18)

/-- What the bytes of a well-formed frame say (R85): the header fields DECODE returns. -/
def hasHeader (P : Params) (F : Frame) (h : Header) : Prop :=
  14 ≤ F.length ∧ h.dm.toNat = macAt F 0 ∧ h.sm.toNat = macAt F 6 ∧
    ((halfAt F 12 ≠ P.tpid.toNat ∧ h.et.toNat = halfAt F 12 ∧ h.vlanId = none) ∨
     (halfAt F 12 = P.tpid.toNat ∧ 18 ≤ F.length ∧ h.et.toNat = halfAt F 16 ∧
       ∃ vid, h.vlanId = some vid ∧ vid.toNat = halfAt F 14 % 4096))

/-- LEARN can write (R130): the address is mapped already, or fewer than TABLE_DEPTH addresses are. -/
def canLearn (s : State) (sm : Mac) : Prop :=
  (∃ p, (sm, p) ∈ s.tbl) ∨ ∀ depth, s.params.tableDepth = some depth → s.tbl.length < depth

/-- The table and tbl_full after `LEARN(sm, inp)` in state `s` (R130), the table as the set of its pairs. -/
def learnEffect (s : State) (sm : Mac) (inp : Nat) (tbl : List (Mac × Nat)) (tblFull : Bool) : Prop :=
  (canLearn s sm → tblFull = false ∧ Tbl.wf tbl ∧
    ∀ m p, (m, p) ∈ tbl ↔ if m = sm then p = inp else (m, p) ∈ s.tbl) ∧
  (¬ canLearn s sm → tblFull = true ∧ tbl = s.tbl)

/-- Some address is new to a full table: LEARN of it cannot write (R134). -/
def State.isFull (s : State) : Prop := ∃ sm, ¬ canLearn s sm

/-- The FAULT bit R29 pairs with a RESULT code. -/
def bitOf : Code → BitVec 4
  | .ok => 0b0000#4
  | .malformed => 0b0001#4
  | .unknownIngress => 0b0100#4
  | .unknownEgress => 0b1000#4

/-- The FAULT bits one frame adds (R29): TBL_FULL if LEARN failed, and the bit of an error code. -/
def faultAfter (fault : BitVec 4) (tblFull : Bool) (bit : BitVec 4) : BitVec 4 :=
  fault ||| (if tblFull then 0b0010#4 else 0#4) ||| bit

/-- Port `p` is in the candidate set of a frame to `dm` received on `inp`, with table `tbl` (R91, R150, R151). -/
def isCandidate (P : Params) (tbl : List (Mac × Nat)) (dm : Mac) (inp p : Nat) : Prop :=
  ((dm = bcastMac ∨ ∀ q, (dm, q) ∉ tbl) ∧ p < P.numPorts ∧ p ≠ inp) ∨
    (dm ≠ bcastMac ∧ (dm, p) ∈ tbl ∧ (p ≠ inp ∨ P.samePortHit = .reflect))

/-- The six rows of R92: which bytes and length a frame leaves with, from a port configured `src` to one configured
`dst`; where nothing satisfies it the row drops. -/
def forwards (P : Params) (src dst : PortConfig) (vlanId : Option VlanId) (F : Frame) (bytes : Frame)
    (length : Nat) : Prop :=
  match src, dst with
  | .access sv, .access dv => dv = sv ∧ bytes = F ∧ length = F.length
  | .access sv, .trunk => bytes = F.take 12 ++ tagBytes P sv.toNat ++ F.drop 12 ∧ length = F.length + 4
  | .trunk, .access dv => vlanId = some dv ∧ bytes = F.take 12 ++ F.drop 16 ∧ length + 4 = F.length
  | .trunk, .trunk => bytes = F ∧ length = F.length

end Sys2Proof.Machine
end

