-- ==== Sys2Proof/Certificates/Slice0/Obligations.lean ====
section
/-! DEFINITION. The statements about the model, for the provers. Each docstring names the rules of spec/ it rests on.
A next state is written out in full wherever that is possible, so that one equation is the result, the completion and
the frame of the operation at once: every field not named is unchanged. -/

open Sys2Proof Sys2Proof.Machine

/-! ### The machine: one step -/

/-- The model's choice, log entry 5: the operations of a run come as transactions in a queue, and a step takes the one at
the front and is exec of the operation it decodes to, on the state with that transaction taken. R61 and R62 say that a
run is one sequence of whole steps; they name no queue and no decoding. -/
def Obligations.StepExecutesDecodedTransaction : Prop :=
  ∀ (s : State) (t : Txn) (rest : List Txn) (i : Instr), s.pending = t :: rest → decode s.params t = .ok i →
    step s = exec i { s with pending := rest }

/-- R213 (idle: the block "holds its state") and log entry 5 (a transaction that is no operation is refused by name). -/
def Obligations.StepIdlesOrRejects : Prop :=
  (∀ s : State, s.pending = [] → step s = .next s) ∧
  ∀ (s : State) (t : Txn) (rest : List Txn) (why : Reject), s.pending = t :: rest →
    decode s.params t = .error why → step s = .refused (.undecodable why)

/-! ### Encodings -/

/-- R81, R82, R84 to R86, R88, R91 to R94, R200: no bit of a well-formed operation is dropped between encoder and
decoder, for every legal parameter record (the field order is log entry 5's). -/
def Obligations.DecodeOfEncodeIsIdentity : Prop :=
  ∀ (P : Params) (i : Instr), P.legal = true → i.wf P = true → decode P (encode P i) = .ok i

/-- What the decoder answers is well formed: every operand fits its wires, and the row is the one its operands
select. -/
def Obligations.DecodedOperationsAreWellFormed : Prop :=
  ∀ (P : Params) (t : Txn) (i : Instr), decode P t = .ok i → i.wf P = true

/-- R88 (the class of a frame, in the table's order), R85 (its fields), R89 (nothing but the bytes decides). -/
def Obligations.RxFrameClassIsDecidedByBytes : Prop :=
  ∀ (P : Params) (inp : Nat) (F : Frame), inp < 2 ^ P.portW → F.length ≤ P.maxFrameBytes →
    let r := decode P { line := .rx, fields := [inp, F.length], bytes := F }
    (F.length < 14 → r = .ok (.short inp F)) ∧
    (14 ≤ F.length → halfAt F 12 ≠ P.tpid.toNat → ∃ dm sm et, r = .ok (.untagged inp dm sm et (F.drop 14)) ∧
      dm.toNat = macAt F 0 ∧ sm.toNat = macAt F 6 ∧ et.toNat = halfAt F 12) ∧
    (14 ≤ F.length → halfAt F 12 = P.tpid.toNat → F.length < 18 → ∃ dm sm,
      r = .ok (.shortTagged inp dm sm (F.drop 14)) ∧ dm.toNat = macAt F 0 ∧ sm.toNat = macAt F 6) ∧
    (18 ≤ F.length → halfAt F 12 = P.tpid.toNat → ∃ dm sm pri vid et,
      r = .ok (.tagged inp dm sm pri vid et (F.drop 18)) ∧ dm.toNat = macAt F 0 ∧ sm.toNat = macAt F 6 ∧
      pri.toNat = halfAt F 14 / 4096 ∧ vid.toNat = halfAt F 14 % 4096 ∧ et.toNat = halfAt F 16)

/-- R81, R82: the layouts lose nothing of a received frame; the operation it decodes to has exactly its bytes. -/
def Obligations.RxDecodingKeepsEveryByte : Prop :=
  ∀ (P : Params) (inp len : Nat) (F : Frame) (i : Instr),
    decode P { line := .rx, fields := [inp, len], bytes := F } = .ok i →
    encode P i = { line := .rx, fields := [inp, len], bytes := F }

/-- A few words written out from the spec's encodings: R86 (`81 00 00 0a`), R91 (DM all ones), R92 (row code 0b01),
R94 (0x200A is Access VLAN 10), R200 (code 0b10), R88 (a 14-byte header). The parameter record `Params.initial` is the
model's choice (log entry 2; its TPID 0x8100 is the default of an open parameter of the spec), and so is the order of
the fields on a line (log entry 5); the bits inside each field are the spec's. -/
def Obligations.TableWordsDecodeToTheirRows : Prop :=
  decode Params.initial { line := .tagWord, fields := [0x8100000a], bytes := [] } = .ok (.tag 10#12) ∧
  decode Params.initial { line := .dest, fields := [0xffffffffffff, 1, 0], bytes := [] } = .ok (.bcast 1) ∧
  decode Params.initial { line := .policyRow, fields := [0b01, 2, 10], bytes := [] } = .ok (.atTag 2 10#12 []) ∧
  decode Params.initial { line := .cfgWrite, fields := [0, 0x200A], bytes := [] } =
    .ok (.cfgWrite 0 true .access 10#12) ∧
  decode Params.initial { line := .result, fields := [0b10, 1], bytes := [] } = .ok (.unknownIngress true) ∧
  decode Params.initial { line := .rx, fields := [0, 14], bytes :=
      [2#8, 0#8, 0#8, 0#8, 0#8, 0x0b#8, 2#8, 0#8, 0#8, 0#8, 0#8, 0x0a#8, 8#8, 0#8] } =
    .ok (.untagged 0 0x02000000000b#48 0x02000000000a#48 0x0800#16 [])

/-! ### The Frame Codec -/

/-- R110, R85: DECODE reads the header its bytes have, writes `w.DM`, `w.SM`, `w.ET`, `w.TAGGED`, `w.VID` and nothing
else, or answers Malformed and changes no register. That these registers hold a value after a DECODE on its own, outside
a PROCESS, and that it leaves the others, is the model's choice (log entry 4). -/
def Obligations.DecodeReadsHeaderFields : Prop :=
  ∀ (s : State) (F : Frame),
    (isMalformed s.params F → exec (.decode F F.length) s = .next { s with out := s.out ++ [.decoded none] }) ∧
    (¬ isMalformed s.params F → ∃ h, hasHeader s.params F h ∧
      exec (.decode F F.length) s = .next { s with
        w := { s.w with dm := h.dm, sm := h.sm, et := h.et, vlanId := h.vlanId },
        out := s.out ++ [.decoded (some h)] })

/-- R111: ENCODE_TAG is total and gives TPID, then the low 12 bits of its operand under four zero bits. -/
def Obligations.EncodeTagGivesTagBytes : Prop :=
  ∀ (s : State) (v : Nat),
    exec (.encodeTag v) s = .next { s with out := s.out ++ [.bytes (tagBytes s.params v)] }

/-- R52, R86: the tag word of a VLAN id is the same four bytes, read as one 32-bit big-endian word. That the row TAG, as an
operation of its own, answers them and changes nothing is log entry 9's reading. -/
def Obligations.TagRowGivesTagBytes : Prop :=
  ∀ (s : State) (vid : VlanId),
    exec (.tag vid) s = .next { s with out := s.out ++ [.bytes (tagBytes s.params vid.toNat)] }

/-- R112: INSERT_TAG by offsets. The first 12 bytes stay, the tag follows, byte i of the result is byte i - 4 of the
frame from 16 on, and the length grows by 4. A frame of fewer than 12 bytes is refused. -/
def Obligations.InsertTagMovesBytesByFour : Prop :=
  ∀ (s : State) (F : Frame) (v : Nat),
    (12 ≤ F.length → ∃ F', exec (.insertTag F v) s = .next { s with out := s.out ++ [.bytes F'] } ∧
      F'.length = F.length + 4 ∧ (∀ i, i < 12 → F'[i]? = F[i]?) ∧ (F'.drop 12).take 4 = tagBytes s.params v ∧
      ∀ i, 16 ≤ i → F'[i]? = F[i - 4]?) ∧
    (F.length < 12 → exec (.insertTag F v) s = .refused .insertShort)

/-- R113: STRIP_TAG by offsets, on a TAGGED frame; on any other it is refused. -/
def Obligations.StripTagMovesBytesByFour : Prop :=
  ∀ (s : State) (F : Frame),
    (18 ≤ F.length ∧ halfAt F 12 = s.params.tpid.toNat → ∃ F',
      exec (.stripTag F) s = .next { s with out := s.out ++ [.bytes F'] } ∧ F'.length + 4 = F.length ∧
      (∀ i, i < 12 → F'[i]? = F[i]?) ∧ ∀ i, 12 ≤ i → F'[i]? = F[i + 4]?) ∧
    (¬ (18 ≤ F.length ∧ halfAt F 12 = s.params.tpid.toNat) → exec (.stripTag F) s = .refused .stripUntagged)

/-- R114: for every VLAN id and every frame of at least 14 bytes, stripping an inserted tag gives the frame back, and
DECODE of the tagged frame returns that VLAN id, the frame's addresses, and be16 at its offset 12 as EtherType; a
tagged frame of 12 or 13 bytes is refused by STRIP_TAG and Malformed to DECODE, and below 12 INSERT_TAG refuses. (What
DECODE leaves in the working registers: log entry 4, as in DecodeReadsHeaderFields.) -/
def Obligations.TagRoundTrip : Prop :=
  ∀ (s : State) (F : Frame) (v : VlanId),
    (14 ≤ F.length → ∃ F' h, exec (.insertTag F v.toNat) s = .next { s with out := s.out ++ [.bytes F'] } ∧
      exec (.stripTag F') s = .next { s with out := s.out ++ [.bytes F] } ∧
      exec (.decode F' F'.length) s = .next { s with
        w := { s.w with dm := h.dm, sm := h.sm, et := h.et, vlanId := h.vlanId },
        out := s.out ++ [.decoded (some h)] } ∧
      h.vlanId = some v ∧ h.dm.toNat = macAt F 0 ∧ h.sm.toNat = macAt F 6 ∧ h.et.toNat = halfAt F 12) ∧
    (12 ≤ F.length → F.length < 14 → ∃ F',
      exec (.insertTag F v.toNat) s = .next { s with out := s.out ++ [.bytes F'] } ∧
      exec (.stripTag F') s = .refused .stripUntagged ∧
      exec (.decode F' F'.length) s = .next { s with out := s.out ++ [.decoded none] }) ∧
    (F.length < 12 → exec (.insertTag F v.toNat) s = .refused .insertShort)

/-- R115: re-inserting the stripped tag's VLAN id gives the frame back exactly when the tag's upper four TCI bits were
zero; otherwise the new tag differs from the old in those four bits. -/
def Obligations.StripThenInsertClearsUpperTciBits : Prop :=
  ∀ (s : State) (F : Frame), 18 ≤ F.length → halfAt F 12 = s.params.tpid.toNat → ∃ F' G,
    exec (.stripTag F) s = .next { s with out := s.out ++ [.bytes F'] } ∧
    exec (.insertTag F' (halfAt F 14 % 4096)) s = .next { s with out := s.out ++ [.bytes G] } ∧
    G.length = F.length ∧ (∀ i, i ≠ 14 → G[i]? = F[i]?) ∧ halfAt G 14 = halfAt F 14 % 4096 ∧
    (halfAt F 14 < 4096 → G = F)

/-! ### The MAC table -/

/-- R130: LEARN's three arms, the table as the set of its pairs. Nothing changes but TBL, or FAULT.TBL_FULL. -/
def Obligations.LearnWritesOneEntryOrReportsFull : Prop :=
  ∀ (s : State) (sm : Mac) (inp : Nat), Tbl.wf s.tbl →
    (canLearn s sm → ∃ tbl, learnEffect s sm inp tbl false ∧
      exec (.learn sm inp) s = .next { s with tbl := tbl, out := s.out ++ [.learned false] }) ∧
    (¬ canLearn s sm → exec (.learn sm inp) s =
      .next { s with fault := s.fault ||| 0b0010#4, out := s.out ++ [.learned true] })

/-- R131, R132: LOOKUP answers the port stored for exactly this address, none if there is none, and writes nothing. -/
def Obligations.LookupReturnsStoredPort : Prop :=
  ∀ (s : State) (dm : Mac), Tbl.wf s.tbl → ∃ r,
    exec (.lookup dm) s = .next { s with out := s.out ++ [.looked r] } ∧ ∀ p, r = some p ↔ (dm, p) ∈ s.tbl

/-- R135: after LEARN(sm, inp) took its first or second arm, a second LEARN(sm, inp) leaves the table as it is. -/
def Obligations.RepeatedLearnLeavesTable : Prop :=
  ∀ (s : State) (sm : Mac) (inp : Nat), Tbl.wf s.tbl → canLearn s sm → ∃ t,
    exec (.learn sm inp) s = .next t ∧ (sm, inp) ∈ t.tbl ∧
    exec (.learn sm inp) t = .next { t with out := t.out ++ [.learned false] }

/-- R136: a station move overwrites the entry; the old port is forgotten and no other address is touched. The update
succeeds even when the table is full (R130). -/
def Obligations.StationMoveOverwritesPort : Prop :=
  ∀ (s : State) (sm : Mac) (p q : Nat), Tbl.wf s.tbl → (sm, p) ∈ s.tbl → ∃ t,
    exec (.learn sm q) s = .next t ∧ (∀ r, (sm, r) ∈ t.tbl ↔ r = q) ∧ t.fault = s.fault ∧
    (∀ m r, m ≠ sm → ((m, r) ∈ t.tbl ↔ (m, r) ∈ s.tbl)) ∧ t.tbl.length = s.tbl.length

/-! ### The egress mapper -/

/-- R150, R151: CANDIDATES lists the candidate set in ascending order and writes no state. That it does so on its own for
an ingress port R150 does not speak of (not below NUM_PORTS, or not configured) is the model's choice (log entry 11). -/
def Obligations.CandidatesListsCandidateSet : Prop :=
  ∀ (s : State) (dm : Mac) (inp : Nat), Tbl.wf s.tbl → ∃ c,
    exec (.candidates dm inp) s = .next { s with out := s.out ++ [.ports c] } ∧ c.Pairwise (· < ·) ∧
    ∀ p, p ∈ c ↔ isCandidate s.params s.tbl dm inp p

/-- R91: each destination row gives the candidate list CANDIDATES gives for its class (for an ingress port no
configuration names: log entry 11). -/
def Obligations.DestinationRowsAgreeWithCandidates : Prop :=
  ∀ (s : State) (dm : Mac) (inp : Nat), Tbl.wf s.tbl →
    (∃ c, exec (.bcast inp) s = .next { s with out := s.out ++ [.ports c] } ∧
      exec (.candidates bcastMac inp) s = exec (.bcast inp) s ∧ c.Pairwise (· < ·) ∧
      ∀ p, p ∈ c ↔ p < s.params.numPorts ∧ p ≠ inp) ∧
    (∀ h, dm ≠ bcastMac → (dm, h) ∈ s.tbl →
      exec (.known dm inp) s = .next { s with out := s.out ++
        [.ports (if h = inp ∧ s.params.samePortHit = .drop then [] else [h])] } ∧
      exec (.candidates dm inp) s = exec (.known dm inp) s) ∧
    (dm ≠ bcastMac → (∀ h, (dm, h) ∉ s.tbl) →
      (∃ c, exec (.unknown dm inp) s = .next { s with out := s.out ++ [.ports c] }) ∧
      exec (.candidates dm inp) s = exec (.unknown dm inp) s ∧ exec (.unknown dm inp) s = exec (.bcast inp) s)

/-- R154: Access to Access, as the rows AA_FWD and AA_DROP and as POLICY on a configured Access port, whatever tag the
frame carries. That a policy row on its own does not consult CFG[d], here and in the three statements below, is the
model's choice (log entry 11). -/
def Obligations.AccessToAccessForwardsSameVlanOnly : Prop :=
  ∀ (s : State) (d : Nat) (sv dv : VlanId) (vlanId : Option VlanId) (F : Frame),
    exec (.aaFwd d sv F) s = .next { s with out := s.out ++ [.policy (some ⟨d, F, F.length⟩)] } ∧
    (dv ≠ sv → exec (.aaDrop d sv dv F) s = .next { s with out := s.out ++ [.policy none] }) ∧
    (s.holds d (.access dv) → exec (.policy .access sv vlanId F F.length d) s =
      .next { s with out := s.out ++ [.policy (if dv = sv then some ⟨d, F, F.length⟩ else none)] })

/-- R155: Access to Trunk inserts the ingress port's VLAN, always; length + 4 (the row on its own: log entry 11). -/
def Obligations.AccessToTrunkInsertsTag : Prop :=
  ∀ (s : State) (d : Nat) (sv : VlanId) (vlanId : Option VlanId) (F : Frame), 12 ≤ F.length →
    exec (.atTag d sv F) s = .next { s with out := s.out ++
      [.policy (some ⟨d, F.take 12 ++ tagBytes s.params sv.toNat ++ F.drop 12, F.length + 4⟩)] } ∧
    (s.holds d .trunk → exec (.policy .access sv vlanId F F.length d) s = exec (.atTag d sv F) s)

/-- R156: Trunk to Access strips the tag where the frame is TAGGED with the port's VLAN, and drops it otherwise; the
ingress port's own vlan is not read. TAGGED and VID are the operands; that they decide where the tag inside the frame
says otherwise, which no PROCESS brings about, is the model's choice (log entry 11). -/
def Obligations.TrunkToAccessStripsMatchingTag : Prop :=
  ∀ (s : State) (d : Nat) (sv dv : VlanId) (vlanId : Option VlanId) (F : Frame),
    (18 ≤ F.length → halfAt F 12 = s.params.tpid.toNat →
      exec (.taStrip d dv F) s = .next { s with out := s.out ++
        [.policy (some ⟨d, F.take 12 ++ F.drop 16, F.length - 4⟩)] } ∧
      (s.holds d (.access dv) →
        exec (.policy .trunk sv (some dv) F F.length d) s = exec (.taStrip d dv F) s)) ∧
    (vlanId ≠ some dv →
      exec (.taDrop d dv vlanId F) s = .next { s with out := s.out ++ [.policy none] } ∧
      (s.holds d (.access dv) →
        exec (.policy .trunk sv vlanId F F.length d) s = exec (.taDrop d dv vlanId F) s))

/-- R157: Trunk to Trunk forwards unchanged, always (the row on its own: log entry 11). -/
def Obligations.TrunkToTrunkForwardsUnchanged : Prop :=
  ∀ (s : State) (d : Nat) (sv : VlanId) (vlanId : Option VlanId) (F : Frame),
    exec (.ttFwd d F) s = .next { s with out := s.out ++ [.policy (some ⟨d, F, F.length⟩)] } ∧
    (s.holds d .trunk → exec (.policy .trunk sv vlanId F F.length d) s = exec (.ttFwd d F) s)

/-- Log entry 8 (the model's choice): a row whose condition is not met, POLICY toward a port with no valid configuration,
and a RESULT row where the RX transaction next in the queue ends otherwise, or where none is next, are refused by
name. -/
def Obligations.UnselectedRowsAreRefused : Prop :=
  ∀ (s : State) (d inp : Nat) (sk : Kind) (v : VlanId) (vlanId : Option VlanId) (dm sm : Mac) (F : Frame),
    (14 ≤ F.length → exec (.short inp F) s = .refused .rowNotSelected) ∧
    exec (.untagged inp dm sm s.params.tpid F) s = .refused .rowNotSelected ∧
    (4 ≤ F.length → exec (.shortTagged inp dm sm F) s = .refused .rowNotSelected) ∧
    exec (.aaDrop d v v F) s = .refused .rowNotSelected ∧
    exec (.taDrop d v (some v) F) s = .refused .rowNotSelected ∧
    exec (.known bcastMac inp) s = .refused .rowNotSelected ∧
    exec (.unknown bcastMac inp) s = .refused .rowNotSelected ∧
    ((∀ h, (dm, h) ∉ s.tbl) → exec (.known dm inp) s = .refused .rowNotSelected) ∧
    ((∃ h, (dm, h) ∈ s.tbl) → exec (.unknown dm inp) s = .refused .rowNotSelected) ∧
    (validCfg s d = none → exec (.policy sk v vlanId F F.length d) s = .refused .rowNotSelected) ∧
    ((∀ p G rest, ¬ s.receivesNext p G rest) → ∀ i : Instr, i.line ∈ [.result, .tblFull] →
      exec i s = .refused .rowNotSelected) ∧
    ∀ p G rest t r actions, s.receivesNext p G rest →
      exec (.process p G G.length) { s with pending := rest } = .next t → t.out = s.out ++ [.frame r actions] →
      (r ≠ ⟨.malformed, false⟩ → exec .malformed s = .refused .rowNotSelected) ∧
      (r.tblFull = false → exec .tblFull s = .refused .rowNotSelected) ∧
      ∀ tf, (r ≠ ⟨.unknownIngress, tf⟩ → exec (.unknownIngress tf) s = .refused .rowNotSelected) ∧
        (r ≠ ⟨.unknownEgress, tf⟩ → exec (.unknownEgress tf) s = .refused .rowNotSelected) ∧
        ∀ acts, (r ≠ ⟨.ok, tf⟩ ∨ actions ≠ acts) → exec (.ok tf acts) s = .refused .rowNotSelected

/-! ### PROCESS -/

/-- R88, R170: the four frame classes are PROCESS of the frames they stand for (that a frame class, as an operation, is
the whole PROCESS is log entry 9's reading). -/
def Obligations.FrameClassOperationsAreProcess : Prop :=
  ∀ (s : State) (inp : Nat) (F : Frame) (i : Instr),
    decode s.params { line := .rx, fields := [inp, F.length], bytes := F } = .ok i →
    exec i s = exec (.process inp F F.length) s

/-- R15, R32: every RX transaction within the contract (R30) is answered in one step by exactly one RESULT with its
action list; the configuration, the parameters and the transactions still to come are untouched. The first clause says
it of PROCESS; the other four say it of the frame classes, which as operations are the whole PROCESS of their frame by
log entry 9's reading, and not by these rules' words. -/
def Obligations.EveryRxTransactionIsAnswered : Prop :=
  ∀ s : State,
    let answered := fun i : Instr => ∃ t r actions, exec i s = .next t ∧
      t.out = s.out ++ [.frame r actions] ∧ t.portCfg = s.portCfg ∧ t.params = s.params ∧ t.pending = s.pending
    (∀ inp F, F.length ≤ s.params.maxFrameBytes → answered (.process inp F F.length)) ∧
    (∀ inp F, F.length < 14 → F.length ≤ s.params.maxFrameBytes → answered (.short inp F)) ∧
    (∀ inp dm sm et payload, et ≠ s.params.tpid → 14 + payload.length ≤ s.params.maxFrameBytes →
      answered (.untagged inp dm sm et payload)) ∧
    (∀ inp dm sm rest, rest.length < 4 → 14 + rest.length ≤ s.params.maxFrameBytes →
      answered (.shortTagged inp dm sm rest)) ∧
    (∀ inp dm sm pri vid et payload, 18 + payload.length ≤ s.params.maxFrameBytes →
      answered (.tagged inp dm sm pri vid et payload))

/-- R201: a malformed frame sets FAULT.MALFORMED, reports (MALFORMED, 0), emits nothing, and teaches the table
nothing; the configuration is not consulted. -/
def Obligations.MalformedFrameIsDropped : Prop :=
  ∀ (s : State) (inp : Nat) (F : Frame), F.length ≤ s.params.maxFrameBytes → isMalformed s.params F → ∃ t,
    exec (.process inp F F.length) s = .next t ∧
    t.fault = s.fault ||| 0b0001#4 ∧ t.out = s.out ++ [.frame ⟨.malformed, false⟩ []] ∧
    t.tbl = s.tbl ∧ t.portCfg = s.portCfg ∧ t.params = s.params ∧ t.pending = s.pending

/-- R203, R140: a frame on a port absent from the configuration sets FAULT.BAD_INGRESS, reports UNKNOWN_INGRESS with
tbl_full, emits nothing; what it taught the table stands. -/
def Obligations.UnknownIngressIsReported : Prop :=
  ∀ (s : State) (inp : Nat) (F : Frame) (h : Header), Tbl.wf s.tbl → F.length ≤ s.params.maxFrameBytes →
    hasHeader s.params F h → validCfg s inp = none → ∃ t tf,
    exec (.process inp F F.length) s = .next t ∧ learnEffect s h.sm inp t.tbl tf ∧
    t.fault = faultAfter s.fault tf 0b0100#4 ∧ t.out = s.out ++ [.frame ⟨.unknownIngress, tf⟩ []] ∧
    t.portCfg = s.portCfg ∧ t.params = s.params ∧ t.pending = s.pending

/-- R204, R173: one candidate absent from the configuration ends the whole frame with UNKNOWN_EGRESS and no action,
though others could have been forwarded to; the table update stands. -/
def Obligations.UnknownEgressIsAllOrNothing : Prop :=
  ∀ (s : State) (inp d : Nat) (F : Frame) (h : Header) (src : PortConfig) (tbl : List (Mac × Nat)) (tf : Bool),
    Tbl.wf s.tbl → F.length ≤ s.params.maxFrameBytes → hasHeader s.params F h → s.holds inp src →
    learnEffect s h.sm inp tbl tf → isCandidate s.params tbl h.dm inp d → validCfg s d = none → ∃ t,
    exec (.process inp F F.length) s = .next t ∧ t.tbl = tbl ∧
    t.fault = faultAfter s.fault tf 0b1000#4 ∧ t.out = s.out ++ [.frame ⟨.unknownEgress, tf⟩ []] ∧
    t.portCfg = s.portCfg ∧ t.params = s.params ∧ t.pending = s.pending

/-- R170, R153, R172, R174: a well-formed frame from a configured port whose candidates are all configured is learned,
looked up in the table as its own learning left it, and forwarded by the policy rows: RESULT (OK, tf), one action for
each candidate whose row forwards and no other, in strictly ascending port order. -/
def Obligations.WellFormedFrameIsForwardedByPolicy : Prop :=
  ∀ (s : State) (inp : Nat) (F : Frame) (h : Header) (src : PortConfig) (tbl : List (Mac × Nat)) (tf : Bool),
    Tbl.wf s.tbl → F.length ≤ s.params.maxFrameBytes → hasHeader s.params F h → s.holds inp src →
    learnEffect s h.sm inp tbl tf →
    (∀ d, isCandidate s.params tbl h.dm inp d → (validCfg s d).isSome = true) → ∃ t actions,
    exec (.process inp F F.length) s = .next t ∧ t.tbl = tbl ∧ t.fault = faultAfter s.fault tf 0#4 ∧
    t.out = s.out ++ [.frame ⟨.ok, tf⟩ actions] ∧ t.portCfg = s.portCfg ∧ t.params = s.params ∧
    t.pending = s.pending ∧ (actions.map Action.port).Pairwise (· < ·) ∧
    ∀ a, a ∈ actions ↔ isCandidate s.params tbl h.dm inp a.port ∧ ∃ dst, s.holds a.port dst ∧
      forwards s.params src dst h.vlanId F a.bytes a.length

/-- R15, R31, R116, R180: whatever the state and the operation, a RESULT with actions is emitted only as the outcome of
the PROCESS of one frame, and every action of it has length = |bytes|, a port below NUM_PORTS with a valid
configuration, and at most MAX_FRAME_BYTES + 4 bytes; no two name one port, and none names the ingress port where
SAME_PORT_HIT is DROP. -/
def Obligations.EmittedActionsAreLegal : Prop :=
  ∀ (i : Instr) (s t : State) (r : Result) (actions : List Action),
    exec i s = .next t → t.out = s.out ++ [.frame r actions] →
    (actions.map Action.port).Nodup ∧ ∃ inp F rest,
    exec (.process inp F F.length) { s with pending := rest } = .next t ∧
    ∀ a ∈ actions, a.length = a.bytes.length ∧ a.port < s.params.numPorts ∧ (validCfg s a.port).isSome = true ∧
      a.length ≤ s.params.maxFrameBytes + 4 ∧ a.length < 2 ^ s.params.lenW ∧
      (s.params.samePortHit = .drop → a.port ≠ inp)

/-- R152: a broadcast on a switch whose ports are all Trunk gives exactly NUM_PORTS - 1 actions, each the received
frame, on distinct ports other than the ingress port. -/
def Obligations.TrunkFloodReachesEveryOtherPort : Prop :=
  ∀ (s : State) (inp : Nat) (F : Frame) (h : Header), Tbl.wf s.tbl → F.length ≤ s.params.maxFrameBytes →
    hasHeader s.params F h → h.dm = bcastMac → inp < s.params.numPorts →
    (∀ p, p < s.params.numPorts → s.holds p .trunk) → ∃ t tf actions,
    exec (.process inp F F.length) s = .next t ∧ t.out = s.out ++ [.frame ⟨.ok, tf⟩ actions] ∧
    actions.length + 1 = s.params.numPorts ∧ (actions.map Action.port).Nodup ∧
    ∀ a ∈ actions, a.port ≠ inp ∧ a.bytes = F ∧ a.length = F.length

/-- R151, R174: a frame to its own source address is a known-unicast hit on its ingress port, whatever the table held:
under REFLECT it goes back out unchanged as one action on that port; under DROP nothing is sent; the RESULT is OK. -/
def Obligations.FrameToOwnSourceIsSamePortHit : Prop :=
  ∀ (s : State) (inp : Nat) (F : Frame) (h : Header) (src : PortConfig), Tbl.wf s.tbl →
    F.length ≤ s.params.maxFrameBytes → hasHeader s.params F h → s.holds inp src → canLearn s h.sm →
    h.dm = h.sm → h.dm ≠ bcastMac → ∃ t, exec (.process inp F F.length) s = .next t ∧
      (s.params.samePortHit = .drop → t.out = s.out ++ [.frame ⟨.ok, false⟩ []]) ∧
      (s.params.samePortHit = .reflect → t.out = s.out ++ [.frame ⟨.ok, false⟩ [⟨inp, F, F.length⟩]])

/-- R160: a frame to an address mapped to another configured port p goes to p only, and if the policy forbids that, to
no port: RESULT (OK, tf), no flooding. -/
def Obligations.KnownUnicastIsNeverFlooded : Prop :=
  ∀ (s : State) (inp p : Nat) (F : Frame) (h : Header) (src dst : PortConfig), Tbl.wf s.tbl →
    F.length ≤ s.params.maxFrameBytes → hasHeader s.params F h → s.holds inp src → s.holds p dst →
    (h.dm, p) ∈ s.tbl → h.dm ≠ h.sm → h.dm ≠ bcastMac → p ≠ inp → ∃ t tf actions,
    exec (.process inp F F.length) s = .next t ∧ t.out = s.out ++ [.frame ⟨.ok, tf⟩ actions] ∧
    (∀ a ∈ actions, a.port = p) ∧ actions.length ≤ 1 ∧
    ((∀ bytes length, ¬ forwards s.params src dst h.vlanId F bytes length) → actions = [])

/-- R159: untagged traffic from a Trunk port reaches Trunk ports only, unchanged. -/
def Obligations.UntaggedTrunkTrafficReachesTrunksOnly : Prop :=
  ∀ (s t : State) (inp len : Nat) (F : Frame) (h : Header) (r : Result) (actions : List Action),
    exec (.process inp F len) s = .next t → t.out = s.out ++ [.frame r actions] → hasHeader s.params F h →
    s.holds inp .trunk → h.vlanId = none → ∀ a ∈ actions, s.holds a.port .trunk ∧ a.bytes = F

/-- R154 to R157 as one isolation rule of the whole block: a frame leaves through an Access port of VLAN v only if it
came in through an Access port of VLAN v, unchanged, or through a Trunk port with the tag v, which is removed. -/
def Obligations.AccessPortsReceiveTheirVlanOnly : Prop :=
  ∀ (s t : State) (inp len : Nat) (F : Frame) (r : Result) (actions : List Action) (v : VlanId),
    exec (.process inp F len) s = .next t → t.out = s.out ++ [.frame r actions] →
    ∀ a ∈ actions, s.holds a.port (.access v) →
      (s.holds inp (.access v) ∧ a.bytes = F) ∨
      (s.holds inp .trunk ∧ halfAt F 12 = s.params.tpid.toNat ∧ halfAt F 14 % 4096 = v.toNat ∧
        a.bytes = F.take 12 ++ F.drop 16)

/-- R134: under the premise FAULT.TBL_FULL = 0 after the frame, the table is the source's unbounded map: the source
address is mapped to the ingress port and every other address is as before. -/
def Obligations.NeverFullTableIsUnboundedMap : Prop :=
  ∀ (s t : State) (inp len : Nat) (F : Frame) (h : Header), Tbl.wf s.tbl →
    exec (.process inp F len) s = .next t → hasHeader s.params F h → t.neverFull →
    ∀ m p, (m, p) ∈ t.tbl ↔ if m = h.sm then p = inp else (m, p) ∈ s.tbl

/-- R23, R29, R31, R36: what PROCESS shows and what it leaves in TBL and CFG depends on the parameters, TBL, CFG and
the transaction alone; FAULT, the working registers, the frame buffer and what was emitted before never influence it. -/
def Obligations.ForwardingIgnoresFaultAndPastFrames : Prop :=
  ∀ (s u t : State) (inp len : Nat) (F : Frame), u.params = s.params → u.tbl = s.tbl → u.portCfg = s.portCfg →
    exec (.process inp F len) s = .next t → ∃ t' e, exec (.process inp F len) u = .next t' ∧
      t.out = s.out ++ [e] ∧ t'.out = u.out ++ [e] ∧ t'.tbl = t.tbl ∧ t'.portCfg = t.portCfg

/-! ### The host operations -/

/-- R176, R177, R94: a CFG_WRITE of an existing register changes that register and nothing else, and a CFG_READ after
it returns the 14-bit word valid : kind : vlan written, the vlan of a Trunk port included. -/
def Obligations.CfgReadReturnsWhatCfgWriteWrote : Prop :=
  ∀ (s : State) (p : Nat) (valid : Bool) (kind : Kind) (vlan : VlanId), s.portCfg.length = s.params.numPorts →
    p < s.params.numPorts → ∃ t word,
    exec (.cfgWrite p valid kind vlan) s = .next t ∧ t = { s with portCfg := t.portCfg } ∧
    (∀ q, q ≠ p → t.portCfg[q]? = s.portCfg[q]?) ∧ t.portCfg[p]? = some ⟨valid, kind, vlan⟩ ∧
    exec (.cfgRead p) t = .next { t with out := t.out ++ [.cfgRead word] } ∧
    word.toNat = (if valid then 8192 else 0) + (if kind = .trunk then 4096 else 0) + vlan.toNat

/-- R177: CFG_READ returns the register and has no side effect. -/
def Obligations.CfgReadReturnsRegister : Prop :=
  ∀ (s : State) (p : Nat) (c : PortCfg), p < s.params.numPorts → s.portCfg[p]? = some c → ∃ word,
    exec (.cfgRead p) s = .next { s with out := s.out ++ [.cfgRead word] } ∧
    word.toNat = (if c.valid then 8192 else 0) + (if c.kind = .trunk then 4096 else 0) + c.vlan.toNat

/-- R94, R55: the row PORT_CFG writes its word whole: bit 13 is valid, bit 12 is kind, bits 11..0 are vlan, and it is
the CFG_WRITE of those fields (that the row, as an operation, writes the register is log entry 9's reading). -/
def Obligations.PortCfgWordIsValidKindVlan : Prop :=
  ∀ (s : State) (p : Nat) (word : BitVec 14), p < s.params.numPorts → ∃ vlan : VlanId,
    vlan.toNat = word.toNat % 4096 ∧
    exec (.portCfg p word) s = .next { s with
      portCfg := s.portCfg.set p ⟨word.getLsbD 13, if word.getLsbD 12 then .trunk else .access, vlan⟩ } ∧
    exec (.cfgWrite p (word.getLsbD 13) (if word.getLsbD 12 then .trunk else .access) vlan) s =
      exec (.portCfg p word) s

/-- R178: FAULT_READ returns FAULT and clears nothing. -/
def Obligations.FaultReadReturnsFault : Prop :=
  ∀ s : State, exec .faultRead s = .next { s with out := s.out ++ [.faultRead s.fault] }

/-- R179: RESET empties TBL, makes every register invalid and clears FAULT, for the same parameters; that
the queue and the output stay is the model's choice (log entry 7). -/
def Obligations.ResetClearsTableConfigurationAndFault : Prop :=
  ∀ s : State, ∃ t, exec .reset s = .next t ∧ t.tbl = [] ∧ t.fault = 0#4 ∧ t.frame = [] ∧
    t.portCfg.length = s.params.numPorts ∧ (∀ c ∈ t.portCfg, c.valid = false) ∧ t.params = s.params ∧
    t.pending = s.pending ∧ t.out = s.out

/-- R37, R230: the reset state for any parameters, and the word CFG_READ shows there: bit 13 clear, whatever the free
bits below it are (C9). -/
def Obligations.ResetStateIsEmptyAndUnconfigured : Prop :=
  ∀ (P : Params) (n : Nat), let s := State.resetAt P n
    s.params = P ∧ s.tbl = [] ∧ s.fault = 0#4 ∧ s.frame = [] ∧ s.pending = [] ∧ s.out = [] ∧
    (∀ p, validCfg s p = none) ∧
    ∀ p, p < P.numPorts → ∃ word, exec (.cfgRead p) s = .next { s with out := [.cfgRead word] } ∧
      word.getLsbD 13 = false

/-! ### Error outcomes and refusals -/

/-- R201, R203, R204, R206: the rows MALFORMED, UNKNOWN_INGRESS and UNKNOWN_EGRESS are the PROCESS of the RX transaction
next in the queue where it ends so: the paired FAULT bit is set, the RESULT has no action, and what LEARN did stands
(that a RESULT row, as an operation, answers the RX transaction next in the queue is log entry 9's reading). -/
def Obligations.ErrorRowsSetTheirFaultBit : Prop :=
  ∀ (s : State) (inp : Nat) (F : Frame) (rest : List Txn), s.receivesNext inp F rest →
    (isMalformed s.params F → ∃ t, exec .malformed s = .next t ∧
      exec (.process inp F F.length) { s with pending := rest } = .next t ∧
      t.fault = s.fault ||| 0b0001#4 ∧ t.out = s.out ++ [.frame ⟨.malformed, false⟩ []] ∧ t.tbl = s.tbl ∧
      t.portCfg = s.portCfg ∧ t.params = s.params ∧ t.pending = rest) ∧
    ∀ h tbl tf, Tbl.wf s.tbl → hasHeader s.params F h → learnEffect s h.sm inp tbl tf →
      (validCfg s inp = none → ∃ t, exec (.unknownIngress tf) s = .next t ∧
        exec (.process inp F F.length) { s with pending := rest } = .next t ∧
        t.fault = faultAfter s.fault tf 0b0100#4 ∧ t.out = s.out ++ [.frame ⟨.unknownIngress, tf⟩ []] ∧ t.tbl = tbl ∧
        t.portCfg = s.portCfg ∧ t.params = s.params ∧ t.pending = rest) ∧
      ∀ src d, s.holds inp src → isCandidate s.params tbl h.dm inp d → validCfg s d = none → ∃ t,
        exec (.unknownEgress tf) s = .next t ∧
        exec (.process inp F F.length) { s with pending := rest } = .next t ∧
        t.fault = faultAfter s.fault tf 0b1000#4 ∧ t.out = s.out ++ [.frame ⟨.unknownEgress, tf⟩ []] ∧ t.tbl = tbl ∧
        t.portCfg = s.portCfg ∧ t.params = s.params ∧ t.pending = rest

/-- R200, R202: the row OK is the PROCESS of the RX transaction next in the queue where it ends so, with the actions of
the policy rows and no FAULT bit but TBL_FULL; the row TBL_FULL is that PROCESS where its source address is new to a
full table, which sets FAULT.TBL_FULL, reports tbl_full = 1 and leaves TBL (log entry 9, as for the error rows). -/
def Obligations.OkAndTblFullRowsReport : Prop :=
  ∀ (s : State) (inp : Nat) (F : Frame) (rest : List Txn) (h : Header) (tbl : List (Mac × Nat)) (tf : Bool),
    s.receivesNext inp F rest → Tbl.wf s.tbl → hasHeader s.params F h → learnEffect s h.sm inp tbl tf →
    (∀ src, s.holds inp src → (∀ d, isCandidate s.params tbl h.dm inp d → (validCfg s d).isSome = true) →
      ∃ t actions, exec (.ok tf actions) s = .next t ∧
      exec (.process inp F F.length) { s with pending := rest } = .next t ∧ t.tbl = tbl ∧
      t.fault = faultAfter s.fault tf 0#4 ∧ t.out = s.out ++ [.frame ⟨.ok, tf⟩ actions] ∧ t.portCfg = s.portCfg ∧
      t.params = s.params ∧ t.pending = rest ∧ (actions.map Action.port).Pairwise (· < ·) ∧
      ∀ a, a ∈ actions ↔ isCandidate s.params tbl h.dm inp a.port ∧ ∃ dst, s.holds a.port dst ∧
        forwards s.params src dst h.vlanId F a.bytes a.length) ∧
    (¬ canLearn s h.sm → ∃ t r actions, exec .tblFull s = .next t ∧
      exec (.process inp F F.length) { s with pending := rest } = .next t ∧ r.tblFull = true ∧
      t.fault = faultAfter s.fault true (bitOf r.code) ∧ t.out = s.out ++ [.frame r actions] ∧ t.tbl = s.tbl ∧
      t.portCfg = s.portCfg ∧ t.params = s.params ∧ t.pending = rest)

/-- R30, U4: a frame longer than MAX_FRAME_BYTES is outside the RX contract, and its frame class is refused as the
PROCESS of that frame is (that a frame class, as an operation, is that PROCESS is log entry 9's reading). A frame of the
classes SHORT and SHORT_TAGGED is longer than MAX_FRAME_BYTES only where that is below 18, which R6 excludes
(`Params.legal`); their clauses speak of such records only. -/
def Obligations.OverlongFrameClassesAreRefused : Prop :=
  ∀ (s : State) (F : Frame) (inp : Nat) (dm sm : Mac) (pri : BitVec 4) (vid : VlanId) (et : Half),
    (F.length < 14 → s.params.maxFrameBytes < F.length → exec (.short inp F) s = .refused .rxContract) ∧
    (et ≠ s.params.tpid → s.params.maxFrameBytes < 14 + F.length →
      exec (.untagged inp dm sm et F) s = .refused .rxContract) ∧
    (F.length < 4 → s.params.maxFrameBytes < 14 + F.length →
      exec (.shortTagged inp dm sm F) s = .refused .rxContract) ∧
    (s.params.maxFrameBytes < 18 + F.length → exec (.tagged inp dm sm pri vid et F) s = .refused .rxContract)

/-- Violated preconditions are refused by name and have no next state: PROCESS outside the RX contract (R30, U4), AT_TAG's
and POLICY's INSERT_TAG on fewer than 12 bytes (U2), TA_STRIP's and POLICY's STRIP_TAG on a frame that is not TAGGED
(U1), and CFG_WRITE and CFG_READ of no register (U3), all of R211's list. Not in that list: a wrong length operand
of DECODE and POLICY (R16 and log entry 8, the model's choice), and that the rows AT_TAG, TA_STRIP and PORT_CFG are
operations of their own, refused as the operations they contain (log entries 9 and 11). -/
def Obligations.PreconditionViolationsAreRefused : Prop :=
  ∀ (s : State) (F : Frame) (inp len p d : Nat) (v : VlanId) (sk : Kind) (vlanId : Option VlanId),
    (len ≠ F.length ∨ s.params.maxFrameBytes < F.length →
      exec (.process inp F len) s = .refused .rxContract) ∧
    (len ≠ F.length → exec (.decode F len) s = .refused .lengthMismatch ∧
      exec (.policy sk v vlanId F len d) s = .refused .lengthMismatch) ∧
    (F.length < 12 → exec (.atTag d v F) s = .refused .insertShort ∧
      (s.holds d .trunk → exec (.policy .access v vlanId F F.length d) s = .refused .insertShort)) ∧
    (¬ (18 ≤ F.length ∧ halfAt F 12 = s.params.tpid.toNat) →
      exec (.taStrip d v F) s = .refused .stripUntagged ∧ ∀ sv, s.holds d (.access v) →
        exec (.policy .trunk sv (some v) F F.length d) s = .refused .stripUntagged) ∧
    (s.params.numPorts ≤ p → ∀ valid kind word, exec (.cfgWrite p valid kind v) s = .refused .noSuchRegister ∧
      exec (.cfgRead p) s = .refused .noSuchRegister ∧ exec (.portCfg p word) s = .refused .noSuchRegister)

/-! ### Invariants and rules of the whole machine -/

/-- The invariant of every state (R6, R25 to R28, R50): the table canonical and within TABLE_DEPTH, one register per
port, every width kept. -/
def Obligations.StepKeepsInvariant : Prop :=
  ∀ s t : State, s.Inv → step s = .next t → t.Inv

/-- The reset state meets the invariant, for every legal parameter record. -/
def Obligations.ResetMeetsInvariant : Prop :=
  ∀ (P : Params) (n : Nat), P.legal = true → (State.resetAt P n).Inv

/-- R29: a FAULT bit once set stays set under every operation but RESET. -/
def Obligations.FaultBitsAreSticky : Prop :=
  ∀ (i : Instr) (s t : State), i ≠ .reset → exec i s = .next t → s.fault &&& t.fault = s.fault

/-- R29, R212: only frames (as RX transactions or by the RESULT row that answers one) and LEARN set a FAULT bit; no host
operation writes FAULT but RESET. -/
def Obligations.OtherOperationsLeaveFault : Prop :=
  ∀ (i : Instr) (s t : State), exec i s = .next t →
    i.line ∉ [.rx, .process, .learn, .result, .tblFull, .reset] → t.fault = s.fault

/-- R139, R26: between two RESETs no address is forgotten, and one operation adds at most one. -/
def Obligations.TableCountNeverDecreases : Prop :=
  ∀ (i : Instr) (s t : State), Tbl.wf s.tbl → i ≠ .reset → exec i s = .next t →
    s.tbl.length ≤ t.tbl.length ∧ t.tbl.length ≤ s.tbl.length + 1 ∧
    ∀ m p, (m, p) ∈ s.tbl → ∃ q, (m, q) ∈ t.tbl

/-- R26, R212: only frames (as RX transactions or by the RESULT row that answers one) and LEARN write a table entry, and
RESET empties the table; no other operation changes it. -/
def Obligations.OtherOperationsLeaveTable : Prop :=
  ∀ (i : Instr) (s t : State), exec i s = .next t → i.line ∉ [.rx, .process, .learn, .result, .tblFull, .reset] →
    t.tbl = s.tbl

/-- R28, R212: the datapath never writes CFG. -/
def Obligations.DatapathLeavesConfiguration : Prop :=
  ∀ (i : Instr) (s t : State), exec i s = .next t → i.line ∉ [.cfgWrite, .portCfg, .reset] →
    t.portCfg = s.portCfg

/-- R6, R7: the parameters are fixed for a run; and R61: an operation takes back nothing it has shown, shows at most one
event, and takes nothing from the queue but the one RX transaction that a RESULT row answers (the trace `out` and the
queue are the model's: log entries 5, 7 and 9). -/
def Obligations.ParametersFixedAndOutputGrows : Prop :=
  ∀ (i : Instr) (s t : State), exec i s = .next t →
    t.params = s.params ∧ (i.line ∉ [.result, .tblFull] → t.pending = s.pending) ∧
    (i.line ∈ [.result, .tblFull] → ∃ inp F, s.receivesNext inp F t.pending) ∧
    ∃ events, t.out = s.out ++ events ∧ events.length ≤ 1

/-- R6: PORT_W = max(1, ceil(log2 NUM_PORTS)) and LEN_W is the smallest w with MAX_FRAME_BYTES + 4 < 2^w. -/
def Obligations.DerivedWidthsAreLeast : Prop :=
  ∀ P : Params, 1 ≤ P.portW ∧ P.numPorts ≤ 2 ^ P.portW ∧ (∀ w, 1 ≤ w → P.numPorts ≤ 2 ^ w → P.portW ≤ w) ∧
    P.maxFrameBytes + 4 < 2 ^ P.lenW ∧ ∀ w, P.maxFrameBytes + 4 < 2 ^ w → P.lenW ≤ w

/-- R13, R15, for runs that present the agents' transactions only (`State.agentsOnly`; the queue is log entry 5's): a step
is idle, or the PROCESS of one RX transaction, taken from the front (behind the RESULT row that answers it, if that
stands first), or one of the host's four operations; and the run goes on so. What it adds to `out` is one RESULT with
its actions or a value the host reads. -/
def Obligations.AgentStepsAreProcessOrHostOperations : Prop :=
  ∀ s t : State, s.agentsOnly → step s = .next t → t.agentsOnly ∧
    ((s.pending = [] ∧ t = s) ∨
     (∃ inp F taken x rest r actions, s.pending = taken ++ x :: rest ∧
       (taken = [] ∨ ∃ y, taken = [y] ∧ y.line ∈ [.result, .tblFull]) ∧
       x.line ∈ [.rx, .process] ∧ x.fields = [inp, F.length] ∧ x.bytes = F ∧ inp < 2 ^ s.params.portW ∧
       exec (.process inp F F.length) { s with pending := rest } = .next t ∧
       t.out = s.out ++ [.frame r actions] ∧ t.pending = rest) ∨
     (∃ x rest i, s.pending = x :: rest ∧ i.line ∈ [.cfgWrite, .cfgRead, .faultRead, .reset] ∧
       exec i { s with pending := rest } = .next t ∧ t.pending = rest ∧
       ∃ events, t.out = s.out ++ events ∧ ∀ e ∈ events, (∃ word, e = .cfgRead word) ∨ ∃ word, e = .faultRead word))

/-- R29, "set when": between RESETs a FAULT bit is set by an outcome and by nothing else. An operation that reports a
frame's RESULT (a PROCESS, EmittedActionsAreLegal) sets the bit of its code, and TBL_FULL where its tbl_full is 1; LEARN
on its own sets TBL_FULL where it answers tbl_full = 1; tbl_full = 1 is answered only where some address is new to a
full table; every other operation leaves FAULT. -/
def Obligations.FaultBitsAreSetExactlyByTheirOutcome : Prop :=
  ∀ (i : Instr) (s t : State), Tbl.wf s.tbl → i ≠ .reset → exec i s = .next t →
    (∀ r actions, t.out = s.out ++ [.frame r actions] →
      t.fault = faultAfter s.fault r.tblFull (bitOf r.code) ∧ (r.tblFull = true → s.isFull)) ∧
    (t.out = s.out ++ [.learned true] → i.line = .learn ∧ t.fault = s.fault ||| 0b0010#4 ∧ s.isFull) ∧
    ((∀ r actions, t.out ≠ s.out ++ [.frame r actions]) → t.out ≠ s.out ++ [.learned true] → t.fault = s.fault)
end

