-- ==== Sys2Proof/Laws/Bits.lean ====
section
/-! SUPPORT. Bytes and fields: each assembly undoes its extraction, both ways, and the fields a decoder checks fit
what an encoder writes. -/

namespace Sys2Proof

@[simp] theorem bytes16_length (v : Half) : (bytes16 v).length = 2 := rfl
@[simp] theorem macBytes_length (m : Mac) : (macBytes m).length = 6 := rfl

theorem be16_toNat (b0 b1 : Byte) : (be16 b0 b1).toNat = b0.toNat * 256 + b1.toNat := by
  have h0 := b0.isLt
  have h1 := b1.isLt
  simp only [be16, BitVec.toNat_ofNat]
  omega

theorem be16_bytes16 (v : Half) : be16 (BitVec.ofNat 8 (v.toNat / 256)) (BitVec.ofNat 8 (v.toNat % 256)) = v := by
  apply BitVec.eq_of_toNat_eq
  have := v.isLt
  simp only [be16_toNat, BitVec.toNat_ofNat]
  omega

theorem bytes16_be16 (b0 b1 : Byte) : bytes16 (be16 b0 b1) = [b0, b1] := by
  have h0 := b0.isLt
  have h1 := b1.isLt
  simp only [bytes16, be16_toNat, List.cons.injEq, and_true]
  constructor <;> apply BitVec.eq_of_toNat_eq <;> simp only [BitVec.toNat_ofNat] <;> omega

theorem mac48_toNat (F : Frame) (a : Nat) : (mac48 F a).toNat =
    (byteAt F a).toNat * 2 ^ 40 + (byteAt F (a + 1)).toNat * 2 ^ 32 + (byteAt F (a + 2)).toNat * 2 ^ 24
      + (byteAt F (a + 3)).toNat * 2 ^ 16 + (byteAt F (a + 4)).toNat * 2 ^ 8 + (byteAt F (a + 5)).toNat := by
  have h0 := (byteAt F a).isLt
  have h1 := (byteAt F (a + 1)).isLt
  have h2 := (byteAt F (a + 2)).isLt
  have h3 := (byteAt F (a + 3)).isLt
  have h4 := (byteAt F (a + 4)).isLt
  have h5 := (byteAt F (a + 5)).isLt
  simp only [mac48, BitVec.toNat_ofNat]
  omega

theorem mac48_of_macBytes {F : Frame} {a : Nat} {m : Mac}
    (h : ∀ i, i < 6 → byteAt F (a + i) = byteAt (macBytes m) i) : mac48 F a = m := by
  apply BitVec.eq_of_toNat_eq
  have hm := m.isLt
  have e0 := h 0 (by omega)
  have e1 := h 1 (by omega)
  have e2 := h 2 (by omega)
  have e3 := h 3 (by omega)
  have e4 := h 4 (by omega)
  have e5 := h 5 (by omega)
  simp only [Nat.add_zero] at e0
  rw [mac48_toNat, e0, e1, e2, e3, e4, e5]
  simp only [byteAt, macBytes, List.getD_cons_zero, List.getD_cons_succ, BitVec.toNat_ofNat, Nat.reducePow]
  omega

theorem macBytes_mac48 (F : Frame) (a : Nat) : macBytes (mac48 F a) =
    [byteAt F a, byteAt F (a + 1), byteAt F (a + 2), byteAt F (a + 3), byteAt F (a + 4), byteAt F (a + 5)] := by
  have h0 := (byteAt F a).isLt
  have h1 := (byteAt F (a + 1)).isLt
  have h2 := (byteAt F (a + 2)).isLt
  have h3 := (byteAt F (a + 3)).isLt
  have h4 := (byteAt F (a + 4)).isLt
  have h5 := (byteAt F (a + 5)).isLt
  simp only [macBytes, mac48_toNat, List.cons.injEq, and_true]
  refine ⟨?_, ?_, ?_, ?_, ?_, ?_⟩ <;> apply BitVec.eq_of_toNat_eq <;>
    simp only [BitVec.toNat_ofNat, Nat.reducePow] <;> omega

theorem tciVid_tciOf (pri : BitVec 4) (vid : VlanId) : tciVid (tciOf pri vid) = vid := by
  apply BitVec.eq_of_toNat_eq
  have h0 := pri.isLt
  have h1 := vid.isLt
  simp only [tciVid, tciOf, BitVec.toNat_ofNat]
  omega

theorem tciPri_tciOf (pri : BitVec 4) (vid : VlanId) : tciPri (tciOf pri vid) = pri := by
  apply BitVec.eq_of_toNat_eq
  have h0 := pri.isLt
  have h1 := vid.isLt
  simp only [tciPri, tciOf, BitVec.toNat_ofNat]
  omega

theorem tciOf_tci (tci : Half) : tciOf (tciPri tci) (tciVid tci) = tci := by
  apply BitVec.eq_of_toNat_eq
  have h0 := tci.isLt
  simp only [tciPri, tciVid, tciOf, BitVec.toNat_ofNat]
  omega

/-- R85 in bytes: `VID = (F[14] & 0x0F) * 256 + F[15]`. -/
theorem tciVid_be16_toNat (b0 b1 : Byte) : (tciVid (be16 b0 b1)).toNat = b0.toNat % 16 * 256 + b1.toNat := by
  have h0 := b0.isLt
  have h1 := b1.isLt
  simp only [tciVid, be16_toNat, BitVec.toNat_ofNat]
  omega

@[simp] theorem kindOf_kindCode (k : Kind) : kindOf (kindCode k) = k := by cases k <;> rfl

theorem cfgWord_toNat (valid : Bool) (kind : Kind) (vlan : VlanId) :
    (cfgWord valid kind vlan).toNat = bitCode valid * 8192 + kindCode kind * 4096 + vlan.toNat := by
  have h := vlan.isLt
  simp only [cfgWord, BitVec.toNat_ofNat]
  cases valid <;> cases kind <;> simp [bitCode, kindCode] <;> omega

@[simp] theorem wordValid_cfgWord (valid : Bool) (kind : Kind) (vlan : VlanId) :
    wordValid (cfgWord valid kind vlan) = valid := by
  have h := vlan.isLt
  simp only [wordValid, cfgWord_toNat]
  cases valid <;> cases kind <;> simp [bitCode, kindCode] <;> omega

@[simp] theorem wordKind_cfgWord (valid : Bool) (kind : Kind) (vlan : VlanId) :
    wordKind (cfgWord valid kind vlan) = kind := by
  have h := vlan.isLt
  simp only [wordKind, kindOf, cfgWord_toNat]
  cases valid <;> cases kind <;> simp [bitCode, kindCode] <;> omega

@[simp] theorem wordVlan_cfgWord (valid : Bool) (kind : Kind) (vlan : VlanId) :
    wordVlan (cfgWord valid kind vlan) = vlan := by
  apply BitVec.eq_of_toNat_eq
  have h := vlan.isLt
  simp only [wordVlan, cfgWord_toNat, BitVec.toNat_ofNat]
  cases valid <;> cases kind <;> simp [bitCode, kindCode] <;> omega

theorem kindCode_kindOf {n : Nat} (h : n < 2) : kindCode (kindOf n) = n := by
  obtain rfl | rfl : n = 0 ∨ n = 1 := by omega
  · rfl
  · rfl

@[simp] theorem cfgWord_word (word : BitVec 14) :
    cfgWord (wordValid word) (wordKind word) (wordVlan word) = word := by
  apply BitVec.eq_of_toNat_eq
  have h := word.isLt
  have hv : bitCode (wordValid word) = word.toNat / 8192 := by
    simp only [wordValid, bitCode, decide_eq_true_eq]
    split <;> omega
  rw [cfgWord_toNat, hv, wordKind, kindCode_kindOf (by omega)]
  simp only [wordVlan, BitVec.toNat_ofNat]
  omega

end Sys2Proof
end

