-- ==== Sys2Proof/Laws/Decode.lean ====
section
/-! SUPPORT. What the decoder's parts answer: the checks, the frame classes, and the line an operation came on. -/

namespace Sys2Proof

theorem require_eq_ok {check : Bool} {why : Reject} {next : Except Reject Instr} {i : Instr} :
    require check why next = .ok i ↔ check = true ∧ next = .ok i := by
  unfold require; cases check <;> simp

theorem decodeFrame_line (P : Params) (inp : Nat) (F : Frame) : (decodeFrame P inp F).line = .rx := by
  unfold decodeFrame
  split
  · rfl
  · split
    · split <;> rfl
    · rfl

theorem decode_rx {P : Params} {inp : Nat} {F : Frame} (hp : portOk P inp = true)
    (hl : F.length ≤ P.maxFrameBytes) :
    decode P { line := .rx, fields := [inp, F.length], bytes := F } = .ok (decodeFrame P inp F) := by
  simp [decode, require, hp, hl]

theorem bytes_split14 {F : Frame} (h : 14 ≤ F.length) :
    F = [byteAt F 0, byteAt F 1, byteAt F 2, byteAt F 3, byteAt F 4, byteAt F 5, byteAt F 6, byteAt F 7, byteAt F 8,
      byteAt F 9, byteAt F 10, byteAt F 11, byteAt F 12, byteAt F 13] ++ F.drop 14 := by
  match F, h with
  | _ :: _ :: _ :: _ :: _ :: _ :: _ :: _ :: _ :: _ :: _ :: _ :: _ :: _ :: _, _ => rfl

theorem bytes_split18 {F : Frame} (h : 18 ≤ F.length) :
    F = [byteAt F 0, byteAt F 1, byteAt F 2, byteAt F 3, byteAt F 4, byteAt F 5, byteAt F 6, byteAt F 7, byteAt F 8,
      byteAt F 9, byteAt F 10, byteAt F 11, byteAt F 12, byteAt F 13, byteAt F 14, byteAt F 15, byteAt F 16,
      byteAt F 17] ++ F.drop 18 := by
  match F, h with
  | _ :: _ :: _ :: _ :: _ :: _ :: _ :: _ :: _ :: _ :: _ :: _ :: _ :: _ :: _ :: _ :: _ :: _ :: _, _ => rfl
  | [_, _, _, _, _, _, _, _, _, _, _, _, _, _, _, _], h => exact absurd h (by simp)
  | [_, _, _, _, _, _, _, _, _, _, _, _, _, _, _, _, _], h => exact absurd h (by simp)

/-- R81, R82: the class a frame decodes to has the frame's own bytes. -/
theorem frameBytes_decodeFrame (P : Params) (inp : Nat) (F : Frame) : frameBytes P (decodeFrame P inp F) = F := by
  unfold decodeFrame
  split
  · rfl
  · split
    · next hb =>
      split
      · simp only [frameBytes, macBytes_mac48, ← hb, bytes16_be16]
        exact (bytes_split14 (by omega)).symm
      · simp only [frameBytes, macBytes_mac48, ← hb, bytes16_be16, tciOf_tci]
        exact (bytes_split18 (by omega)).symm
    · simp only [frameBytes, macBytes_mac48, bytes16_be16]
      exact (bytes_split14 (by omega)).symm

theorem decodePolicyRow_line {P : Params} {fields : List Nat} {F : Frame} {i : Instr}
    (h : decodePolicyRow P fields F = .ok i) : i.line = .policyRow := by
  unfold decodePolicyRow at h
  split at h <;> simp only [require_eq_ok, Except.ok.injEq, reduceCtorEq] at h
  · obtain ⟨-, -, rfl⟩ := h; split <;> rfl
  · obtain ⟨-, -, rfl⟩ := h; rfl
  · obtain ⟨-, -, rfl⟩ := h
    split
    · split <;> rfl
    · rfl
  · obtain ⟨-, rfl⟩ := h; rfl

theorem decodeResult_line {P : Params} {fields : List Nat} {bytes : Frame} {i : Instr}
    (h : decodeResult P fields bytes = .ok i) : i.line = .result := by
  unfold decodeResult at h
  split at h
  · rw [require_eq_ok] at h
    obtain ⟨-, h⟩ := h
    split at h
    · split at h
      · injection h with h; subst h; rfl
      · cases h
    · rw [require_eq_ok, require_eq_ok] at h
      obtain ⟨-, -, h⟩ := h
      split at h
      · rw [require_eq_ok] at h; obtain ⟨-, h⟩ := h; injection h with h; subst h; rfl
      · split at h <;> injection h with h <;> subst h <;> rfl
  · cases h

/-- R105: the line that carries a transaction selects its operation. -/
theorem decode_line {P : Params} {t : Txn} {i : Instr} (h : decode P t = .ok i) : t.line = i.line := by
  rcases t with ⟨line, fields, bytes⟩
  simp only [decode] at h
  split at h
  case h_4 => exact (decodePolicyRow_line h).symm
  case h_18 => exact (decodeResult_line h).symm
  case h_1 => simp only [require_eq_ok, Except.ok.injEq] at h; rw [← h.2.2, decodeFrame_line]
  case h_3 =>
    simp only [require_eq_ok, Except.ok.injEq] at h; rw [← h.2.2]
    split
    · rfl
    · split <;> rfl
  all_goals first
    | (simp only [require_eq_ok, Except.ok.injEq] at h; rw [← h.2.2]; rfl)
    | (simp only [require_eq_ok, Except.ok.injEq] at h; rw [← h.2]; rfl)
    | (simp only [Except.ok.injEq] at h; rw [← h]; rfl)
    | cases h

end Sys2Proof
end

