-- ==== Sys2Proof/Laws/State.lean ====
section
/-! SUPPORT. One lemma per field of State per update of it, each true by unfolding, so that later proofs rewrite with
them and never unfold a record update. -/

namespace Sys2Proof.Machine

variable (s : State)

@[simp] theorem State.setTbl_params (t : List (Mac × Nat)) : (s.setTbl t).params = s.params := rfl
@[simp] theorem State.setTbl_tbl (t : List (Mac × Nat)) : (s.setTbl t).tbl = t := rfl
@[simp] theorem State.setTbl_portCfg (t : List (Mac × Nat)) : (s.setTbl t).portCfg = s.portCfg := rfl
@[simp] theorem State.setTbl_fault (t : List (Mac × Nat)) : (s.setTbl t).fault = s.fault := rfl
@[simp] theorem State.setTbl_w (t : List (Mac × Nat)) : (s.setTbl t).w = s.w := rfl
@[simp] theorem State.setTbl_frame (t : List (Mac × Nat)) : (s.setTbl t).frame = s.frame := rfl
@[simp] theorem State.setTbl_pending (t : List (Mac × Nat)) : (s.setTbl t).pending = s.pending := rfl
@[simp] theorem State.setTbl_out (t : List (Mac × Nat)) : (s.setTbl t).out = s.out := rfl
@[simp] theorem State.setTbl_free (t : List (Mac × Nat)) : (s.setTbl t).free = s.free := rfl

@[simp] theorem State.setPortCfg_params (c : List PortCfg) : (s.setPortCfg c).params = s.params := rfl
@[simp] theorem State.setPortCfg_tbl (c : List PortCfg) : (s.setPortCfg c).tbl = s.tbl := rfl
@[simp] theorem State.setPortCfg_portCfg (c : List PortCfg) : (s.setPortCfg c).portCfg = c := rfl
@[simp] theorem State.setPortCfg_fault (c : List PortCfg) : (s.setPortCfg c).fault = s.fault := rfl
@[simp] theorem State.setPortCfg_w (c : List PortCfg) : (s.setPortCfg c).w = s.w := rfl
@[simp] theorem State.setPortCfg_frame (c : List PortCfg) : (s.setPortCfg c).frame = s.frame := rfl
@[simp] theorem State.setPortCfg_pending (c : List PortCfg) : (s.setPortCfg c).pending = s.pending := rfl
@[simp] theorem State.setPortCfg_out (c : List PortCfg) : (s.setPortCfg c).out = s.out := rfl
@[simp] theorem State.setPortCfg_free (c : List PortCfg) : (s.setPortCfg c).free = s.free := rfl

@[simp] theorem State.setFault_params (b : BitVec 4) : (s.setFault b).params = s.params := rfl
@[simp] theorem State.setFault_tbl (b : BitVec 4) : (s.setFault b).tbl = s.tbl := rfl
@[simp] theorem State.setFault_portCfg (b : BitVec 4) : (s.setFault b).portCfg = s.portCfg := rfl
@[simp] theorem State.setFault_fault (b : BitVec 4) : (s.setFault b).fault = s.fault ||| b := rfl
@[simp] theorem State.setFault_w (b : BitVec 4) : (s.setFault b).w = s.w := rfl
@[simp] theorem State.setFault_frame (b : BitVec 4) : (s.setFault b).frame = s.frame := rfl
@[simp] theorem State.setFault_pending (b : BitVec 4) : (s.setFault b).pending = s.pending := rfl
@[simp] theorem State.setFault_out (b : BitVec 4) : (s.setFault b).out = s.out := rfl
@[simp] theorem State.setFault_free (b : BitVec 4) : (s.setFault b).free = s.free := rfl

@[simp] theorem State.setWork_params (w : Work) : (s.setWork w).params = s.params := rfl
@[simp] theorem State.setWork_tbl (w : Work) : (s.setWork w).tbl = s.tbl := rfl
@[simp] theorem State.setWork_portCfg (w : Work) : (s.setWork w).portCfg = s.portCfg := rfl
@[simp] theorem State.setWork_fault (w : Work) : (s.setWork w).fault = s.fault := rfl
@[simp] theorem State.setWork_w (w : Work) : (s.setWork w).w = w := rfl
@[simp] theorem State.setWork_frame (w : Work) : (s.setWork w).frame = s.frame := rfl
@[simp] theorem State.setWork_pending (w : Work) : (s.setWork w).pending = s.pending := rfl
@[simp] theorem State.setWork_out (w : Work) : (s.setWork w).out = s.out := rfl
@[simp] theorem State.setWork_free (w : Work) : (s.setWork w).free = s.free := rfl

@[simp] theorem State.setFrame_params (F : Frame) : (s.setFrame F).params = s.params := rfl
@[simp] theorem State.setFrame_tbl (F : Frame) : (s.setFrame F).tbl = s.tbl := rfl
@[simp] theorem State.setFrame_portCfg (F : Frame) : (s.setFrame F).portCfg = s.portCfg := rfl
@[simp] theorem State.setFrame_fault (F : Frame) : (s.setFrame F).fault = s.fault := rfl
@[simp] theorem State.setFrame_w (F : Frame) : (s.setFrame F).w = s.w := rfl
@[simp] theorem State.setFrame_frame (F : Frame) : (s.setFrame F).frame = F := rfl
@[simp] theorem State.setFrame_pending (F : Frame) : (s.setFrame F).pending = s.pending := rfl
@[simp] theorem State.setFrame_out (F : Frame) : (s.setFrame F).out = s.out := rfl
@[simp] theorem State.setFrame_free (F : Frame) : (s.setFrame F).free = s.free := rfl

@[simp] theorem State.setPending_params (q : List Txn) : (s.setPending q).params = s.params := rfl
@[simp] theorem State.setPending_tbl (q : List Txn) : (s.setPending q).tbl = s.tbl := rfl
@[simp] theorem State.setPending_portCfg (q : List Txn) : (s.setPending q).portCfg = s.portCfg := rfl
@[simp] theorem State.setPending_fault (q : List Txn) : (s.setPending q).fault = s.fault := rfl
@[simp] theorem State.setPending_w (q : List Txn) : (s.setPending q).w = s.w := rfl
@[simp] theorem State.setPending_frame (q : List Txn) : (s.setPending q).frame = s.frame := rfl
@[simp] theorem State.setPending_pending (q : List Txn) : (s.setPending q).pending = q := rfl
@[simp] theorem State.setPending_out (q : List Txn) : (s.setPending q).out = s.out := rfl
@[simp] theorem State.setPending_free (q : List Txn) : (s.setPending q).free = s.free := rfl

@[simp] theorem State.emit_params (e : Event) : (s.emit e).params = s.params := rfl
@[simp] theorem State.emit_tbl (e : Event) : (s.emit e).tbl = s.tbl := rfl
@[simp] theorem State.emit_portCfg (e : Event) : (s.emit e).portCfg = s.portCfg := rfl
@[simp] theorem State.emit_fault (e : Event) : (s.emit e).fault = s.fault := rfl
@[simp] theorem State.emit_w (e : Event) : (s.emit e).w = s.w := rfl
@[simp] theorem State.emit_frame (e : Event) : (s.emit e).frame = s.frame := rfl
@[simp] theorem State.emit_pending (e : Event) : (s.emit e).pending = s.pending := rfl
@[simp] theorem State.emit_out (e : Event) : (s.emit e).out = s.out ++ [e] := rfl
@[simp] theorem State.emit_free (e : Event) : (s.emit e).free = s.free := rfl

@[simp] theorem State.tick_params : s.tick.params = s.params := rfl
@[simp] theorem State.tick_tbl : s.tick.tbl = s.tbl := rfl
@[simp] theorem State.tick_portCfg : s.tick.portCfg = s.portCfg := rfl
@[simp] theorem State.tick_fault : s.tick.fault = s.fault := rfl
@[simp] theorem State.tick_w : s.tick.w = s.w := rfl
@[simp] theorem State.tick_frame : s.tick.frame = s.frame := rfl
@[simp] theorem State.tick_pending : s.tick.pending = s.pending := rfl
@[simp] theorem State.tick_out : s.tick.out = s.out := rfl
@[simp] theorem State.tick_free : s.tick.free = s.free + 1 := rfl

@[simp] theorem endFrame_params : (endFrame s).params = s.params := rfl
@[simp] theorem endFrame_tbl : (endFrame s).tbl = s.tbl := rfl
@[simp] theorem endFrame_portCfg : (endFrame s).portCfg = s.portCfg := rfl
@[simp] theorem endFrame_fault : (endFrame s).fault = s.fault := rfl
@[simp] theorem endFrame_w : (endFrame s).w = Work.unspecified s.params s.free := rfl
@[simp] theorem endFrame_frame : (endFrame s).frame = (Config.freeFrame s.free).take s.params.maxFrameBytes := rfl
@[simp] theorem endFrame_pending : (endFrame s).pending = s.pending := rfl
@[simp] theorem endFrame_out : (endFrame s).out = s.out := rfl
@[simp] theorem endFrame_free : (endFrame s).free = s.free + 1 := rfl

@[simp] theorem fail_params (code : Code) (tf : Bool) : (fail code tf s).params = s.params := rfl
@[simp] theorem fail_tbl (code : Code) (tf : Bool) : (fail code tf s).tbl = s.tbl := rfl
@[simp] theorem fail_portCfg (code : Code) (tf : Bool) : (fail code tf s).portCfg = s.portCfg := rfl
@[simp] theorem fail_fault (code : Code) (tf : Bool) : (fail code tf s).fault = s.fault ||| faultBit code := rfl
@[simp] theorem fail_w (code : Code) (tf : Bool) : (fail code tf s).w = s.w := rfl
@[simp] theorem fail_frame (code : Code) (tf : Bool) : (fail code tf s).frame = s.frame := rfl
@[simp] theorem fail_pending (code : Code) (tf : Bool) : (fail code tf s).pending = s.pending := rfl
@[simp] theorem fail_out (code : Code) (tf : Bool) : (fail code tf s).out = s.out ++ [.frame { code := code, tblFull := tf } []] := rfl
@[simp] theorem fail_free (code : Code) (tf : Bool) : (fail code tf s).free = s.free := rfl

@[simp] theorem finish_params (tf : Bool) (actions : List Action) : (finish tf actions s).params = s.params := rfl
@[simp] theorem finish_tbl (tf : Bool) (actions : List Action) : (finish tf actions s).tbl = s.tbl := rfl
@[simp] theorem finish_portCfg (tf : Bool) (actions : List Action) : (finish tf actions s).portCfg = s.portCfg := rfl
@[simp] theorem finish_fault (tf : Bool) (actions : List Action) : (finish tf actions s).fault = s.fault := rfl
@[simp] theorem finish_w (tf : Bool) (actions : List Action) : (finish tf actions s).w = s.w := rfl
@[simp] theorem finish_frame (tf : Bool) (actions : List Action) : (finish tf actions s).frame = s.frame := rfl
@[simp] theorem finish_pending (tf : Bool) (actions : List Action) : (finish tf actions s).pending = s.pending := rfl
@[simp] theorem finish_out (tf : Bool) (actions : List Action) : (finish tf actions s).out = s.out ++ [.frame { code := .ok, tblFull := tf } actions] := rfl
@[simp] theorem finish_free (tf : Bool) (actions : List Action) : (finish tf actions s).free = s.free := rfl

end Sys2Proof.Machine
end

