-- ==== Sys2Proof/Laws/Tbl.lean ====
section
/-! SUPPORT. The MAC table as a finite map: a read after a write, and that a write keeps the canonical form. -/

namespace Sys2Proof.Machine

theorem Tbl.lookup_write (t : List (Mac × Nat)) (m m' : Mac) (p : Nat) :
    Tbl.lookup (Tbl.write t m p) m' = if m = m' then some p else Tbl.lookup t m' := by
  induction t with
  | nil => rfl
  | cons e rest ih =>
    obtain ⟨k, q⟩ := e
    simp only [Tbl.write]
    split
    · rfl
    · split
      · next h => subst h; by_cases hm : k = m' <;> simp [Tbl.lookup, hm]
      · next h => by_cases hk : k = m'
                  · subst hk; simp [Tbl.lookup, Ne.symm h]
                  · simp [Tbl.lookup, hk, ih]

@[simp] theorem Tbl.lookup_write_same (t : List (Mac × Nat)) (m : Mac) (p : Nat) :
    Tbl.lookup (Tbl.write t m p) m = some p := by simp [Tbl.lookup_write]

theorem Tbl.mem_write {t : List (Mac × Nat)} {m : Mac} {p : Nat} {e : Mac × Nat} (h : e ∈ Tbl.write t m p) :
    e = (m, p) ∨ e ∈ t := by
  induction t with
  | nil => simpa [Tbl.write] using h
  | cons x rest ih =>
    obtain ⟨k, q⟩ := x
    simp only [Tbl.write] at h
    split at h
    · simpa using h
    · split at h
      · rcases List.mem_cons.1 h with h | h
        · exact .inl h
        · exact .inr (List.mem_cons_of_mem _ h)
      · rcases List.mem_cons.1 h with h | h
        · exact .inr (h ▸ List.mem_cons_self)
        · exact (ih h).imp id (List.mem_cons_of_mem _)

theorem Tbl.write_wf {t : List (Mac × Nat)} (h : Tbl.wf t) (m : Mac) (p : Nat) : Tbl.wf (Tbl.write t m p) := by
  induction t with
  | nil => simp [Tbl.write, Tbl.wf]
  | cons x rest ih =>
    obtain ⟨k, q⟩ := x
    have hx := List.pairwise_cons.1 h
    simp only [Tbl.write]
    split
    · next hlt =>
      refine List.pairwise_cons.2 ⟨fun e he => ?_, h⟩
      rcases List.mem_cons.1 he with rfl | he
      · exact hlt
      · exact Nat.lt_trans hlt (hx.1 e he)
    · next hlt =>
      split
      · next hk => subst hk; exact List.pairwise_cons.2 hx
      · next hk =>
        refine List.pairwise_cons.2 ⟨fun e he => ?_, ih hx.2⟩
        rcases Tbl.mem_write he with rfl | he
        · have : k.toNat ≠ m.toNat := fun hc => hk (BitVec.eq_of_toNat_eq hc)
          simp only; omega
        · exact hx.1 e he

/-- In canonical form a lookup finds exactly the entries listed. -/
theorem Tbl.lookup_eq_some_iff {t : List (Mac × Nat)} (h : Tbl.wf t) (m : Mac) (p : Nat) :
    Tbl.lookup t m = some p ↔ (m, p) ∈ t := by
  induction t with
  | nil => simp [Tbl.lookup]
  | cons x rest ih =>
    obtain ⟨k, q⟩ := x
    have hx := List.pairwise_cons.1 h
    simp only [Tbl.lookup]
    split
    · next hk =>
      subst hk
      simp only [Option.some.injEq, List.mem_cons, Prod.mk.injEq, true_and]
      refine ⟨fun h => .inl h.symm, fun h => ?_⟩
      rcases h with h | h
      · exact h.symm
      · exact absurd (hx.1 _ h) (by simp)
    · next hk =>
      rw [ih hx.2]
      simp [Ne.symm hk]

theorem Tbl.lookup_eq_none_iff (t : List (Mac × Nat)) (m : Mac) :
    Tbl.lookup t m = none ↔ ∀ e ∈ t, e.1 ≠ m := by
  induction t with
  | nil => simp [Tbl.lookup]
  | cons x rest ih =>
    obtain ⟨k, q⟩ := x
    simp only [Tbl.lookup]
    split <;> simp_all

/-- An update in place keeps the count, a new address adds one. -/
theorem Tbl.length_write {t : List (Mac × Nat)} (h : Tbl.wf t) (m : Mac) (p : Nat) :
    (Tbl.write t m p).length = if (Tbl.lookup t m).isSome then t.length else t.length + 1 := by
  induction t with
  | nil => rfl
  | cons x rest ih =>
    obtain ⟨k, q⟩ := x
    have hx := List.pairwise_cons.1 h
    simp only [Tbl.write]
    split
    · next hlt =>
      have hne : k ≠ m := by rintro rfl; omega
      have hnone : Tbl.lookup rest m = none := by
        rw [Tbl.lookup_eq_none_iff]
        intro e he hc
        have := hx.1 e he
        rw [hc] at this
        simp only at this
        omega
      simp [Tbl.lookup, hne, hnone]
    · split
      · next hk => simp [Tbl.lookup, hk]
      · next hk =>
        simp only [List.length_cons, ih hx.2, Tbl.lookup, if_neg hk]
        split <;> rfl

/-- Two canonical tables that read alike are one list. -/
theorem Tbl.ext {t u : List (Mac × Nat)} (ht : Tbl.wf t) (hu : Tbl.wf u)
    (h : ∀ m, Tbl.lookup t m = Tbl.lookup u m) : t = u := by
  have hmem : ∀ e, e ∈ t ↔ e ∈ u := fun ⟨m, p⟩ => by
    rw [← Tbl.lookup_eq_some_iff ht, ← Tbl.lookup_eq_some_iff hu, h]
  have nodup : ∀ {l : List (Mac × Nat)}, Tbl.wf l → l.Nodup := fun hl =>
    hl.imp (fun {a b} hab hc => by subst hc; omega)
  exact ((List.perm_ext_iff_of_nodup (nodup ht) (nodup hu)).2 hmem).eq_of_pairwise
    (fun a b _ _ h1 h2 => by omega) ht hu

/-- Writing what is already stored changes nothing. -/
theorem Tbl.write_same {t : List (Mac × Nat)} (h : Tbl.wf t) {m : Mac} {p : Nat} (hl : Tbl.lookup t m = some p) :
    Tbl.write t m p = t :=
  Tbl.ext (Tbl.write_wf h m p) h (fun m' => by
    rw [Tbl.lookup_write]; split
    · next hm => rw [← hm, hl]
    · rfl)

end Sys2Proof.Machine
end

