-- ==== Sys2Proof/Laws/Ops.lean ====
section
/-! SUPPORT. For each shared operation, once, everything it can do; later proofs cite these and do not unfold the
operation. -/

namespace Sys2Proof.Machine

/-! ### The phases' register writes -/

@[simp] theorem latchHeader_params (h : Header) (s : State) : (latchHeader h s).params = s.params := rfl
@[simp] theorem latchHeader_tbl (h : Header) (s : State) : (latchHeader h s).tbl = s.tbl := rfl
@[simp] theorem latchHeader_portCfg (h : Header) (s : State) : (latchHeader h s).portCfg = s.portCfg := rfl
@[simp] theorem latchHeader_fault (h : Header) (s : State) : (latchHeader h s).fault = s.fault := rfl
@[simp] theorem latchHeader_frame (h : Header) (s : State) : (latchHeader h s).frame = s.frame := rfl
@[simp] theorem latchHeader_pending (h : Header) (s : State) : (latchHeader h s).pending = s.pending := rfl
@[simp] theorem latchHeader_out (h : Header) (s : State) : (latchHeader h s).out = s.out := rfl
@[simp] theorem latchHeader_free (h : Header) (s : State) : (latchHeader h s).free = s.free := rfl
@[simp] theorem latchHeader_w (h : Header) (s : State) : (latchHeader h s).w = { s.w with dm := h.dm, sm := h.sm, et := h.et, vlanId := h.vlanId } := rfl
@[simp] theorem latchIngress_params (c : PortCfg) (s : State) : (latchIngress c s).params = s.params := rfl
@[simp] theorem latchIngress_tbl (c : PortCfg) (s : State) : (latchIngress c s).tbl = s.tbl := rfl
@[simp] theorem latchIngress_portCfg (c : PortCfg) (s : State) : (latchIngress c s).portCfg = s.portCfg := rfl
@[simp] theorem latchIngress_fault (c : PortCfg) (s : State) : (latchIngress c s).fault = s.fault := rfl
@[simp] theorem latchIngress_frame (c : PortCfg) (s : State) : (latchIngress c s).frame = s.frame := rfl
@[simp] theorem latchIngress_pending (c : PortCfg) (s : State) : (latchIngress c s).pending = s.pending := rfl
@[simp] theorem latchIngress_out (c : PortCfg) (s : State) : (latchIngress c s).out = s.out := rfl
@[simp] theorem latchIngress_free (c : PortCfg) (s : State) : (latchIngress c s).free = s.free := rfl
@[simp] theorem latchIngress_w (c : PortCfg) (s : State) : (latchIngress c s).w = { s.w with sk := c.kind, sv := c.vlan } := rfl
@[simp] theorem latchEgress_params (d : Nat) (s : State) : (latchEgress d s).params = s.params := rfl
@[simp] theorem latchEgress_tbl (d : Nat) (s : State) : (latchEgress d s).tbl = s.tbl := rfl
@[simp] theorem latchEgress_portCfg (d : Nat) (s : State) : (latchEgress d s).portCfg = s.portCfg := rfl
@[simp] theorem latchEgress_fault (d : Nat) (s : State) : (latchEgress d s).fault = s.fault := rfl
@[simp] theorem latchEgress_frame (d : Nat) (s : State) : (latchEgress d s).frame = s.frame := rfl
@[simp] theorem latchEgress_pending (d : Nat) (s : State) : (latchEgress d s).pending = s.pending := rfl
@[simp] theorem latchEgress_out (d : Nat) (s : State) : (latchEgress d s).out = s.out := rfl
@[simp] theorem latchEgress_free (d : Nat) (s : State) : (latchEgress d s).free = s.free := rfl
@[simp] theorem latchEgress_w (d : Nat) (s : State) : (latchEgress d s).w = { s.w with d := d } := rfl
@[simp] theorem rxAccept_params (inp : Nat) (F : Frame) (s : State) : (rxAccept inp F s).params = s.params := rfl
@[simp] theorem rxAccept_frame (inp : Nat) (F : Frame) (s : State) : (rxAccept inp F s).frame = F := rfl
@[simp] theorem rxAccept_tbl (inp : Nat) (F : Frame) (s : State) : (rxAccept inp F s).tbl = s.tbl := rfl
@[simp] theorem rxAccept_portCfg (inp : Nat) (F : Frame) (s : State) : (rxAccept inp F s).portCfg = s.portCfg := rfl
@[simp] theorem rxAccept_fault (inp : Nat) (F : Frame) (s : State) : (rxAccept inp F s).fault = s.fault := rfl
@[simp] theorem rxAccept_pending (inp : Nat) (F : Frame) (s : State) : (rxAccept inp F s).pending = s.pending := rfl
@[simp] theorem rxAccept_out (inp : Nat) (F : Frame) (s : State) : (rxAccept inp F s).out = s.out := rfl
@[simp] theorem rxAccept_free (inp : Nat) (F : Frame) (s : State) : (rxAccept inp F s).free = s.free := rfl
@[simp] theorem rxAccept_w (inp : Nat) (F : Frame) (s : State) :
    (rxAccept inp F s).w = { s.w with inp := inp, len := F.length } := rfl

/-! ### The configuration registers -/

/-- `CFG[p]` depends on NUM_PORTS and the registers alone. -/
theorem validCfg_congr {s t : State} (hp : t.params = s.params) (hc : t.portCfg = s.portCfg) (p : Nat) :
    validCfg t p = validCfg s p := by simp [validCfg, portCfgAt, hp, hc]

theorem validCfg_eq_some_iff (s : State) (p : Nat) (c : PortCfg) :
    validCfg s p = some c ↔ p < s.params.numPorts ∧ s.portCfg[p]? = some c ∧ c.valid = true := by
  unfold validCfg portCfgAt
  by_cases hp : p < s.params.numPorts
  · cases hc : s.portCfg[p]? with
    | none => simp [hp]
    | some c' => by_cases hv : c'.valid = true
                 · simp only [hp, if_true, hv, Option.some.injEq, true_and]
                   exact ⟨fun h => ⟨h, h ▸ hv⟩, fun h => h.1⟩
                 · simp only [hp, if_true, if_neg hv, Option.some.injEq, true_and, reduceCtorEq, false_iff]
                   rintro ⟨rfl, h⟩; exact hv h
  · simp [hp]

theorem validCfg_lt {s : State} {p : Nat} (h : (validCfg s p).isSome = true) : p < s.params.numPorts := by
  obtain ⟨c, hc⟩ := Option.isSome_iff_exists.1 h
  exact ((validCfg_eq_some_iff s p c).1 hc).1

theorem hostReg_portCfg {P : Params} {p : Nat} (h : p < P.numPorts) : hostReg P p = some (.portCfg p) := by
  simp [hostReg, h]

theorem writePortCfg_lt {s : State} {p : Nat} (h : p < s.params.numPorts) (c : PortCfg) :
    writePortCfg p c s = .next (s.setPortCfg (s.portCfg.set p c)) := by simp [writePortCfg, hostReg_portCfg h]

theorem writePortCfg_ge {s : State} {p : Nat} (h : s.params.numPorts ≤ p) (c : PortCfg) :
    writePortCfg p c s = .refused .noSuchRegister := by
  unfold writePortCfg hostReg
  rw [if_neg (by omega)]
  by_cases hp : p = s.params.numPorts <;> simp [hp]

theorem writePortCfg_cases {s t : State} {p : Nat} {c : PortCfg} (h : writePortCfg p c s = .next t) :
    p < s.params.numPorts ∧ t = s.setPortCfg (s.portCfg.set p c) := by
  by_cases hp : p < s.params.numPorts
  · rw [writePortCfg_lt hp] at h; injection h with h; exact ⟨hp, h.symm⟩
  · rw [writePortCfg_ge (by omega)] at h; cases h

/-! ### LEARN -/

/-- LEARN either writes the entry or, with the address new and the table full, sets the sticky bit. -/
theorem learn_cases (sm : Mac) (inp : Nat) (s : State) :
    (learn sm inp s = (s.setTbl (Tbl.write s.tbl sm inp), false) ∧
      ((Tbl.lookup s.tbl sm).isSome = true ∨ hasRoom s.params s.tbl = true)) ∨
    (learn sm inp s = (s.setFault tblFullBit, true) ∧ Tbl.lookup s.tbl sm = none ∧
      hasRoom s.params s.tbl = false) := by
  unfold learn
  cases hl : Tbl.lookup s.tbl sm with
  | some _ => simp
  | none => by_cases hr : hasRoom s.params s.tbl <;> simp [hr]

theorem learn_known {sm : Mac} {inp : Nat} {s : State} (h : (Tbl.lookup s.tbl sm).isSome = true) :
    learn sm inp s = (s.setTbl (Tbl.write s.tbl sm inp), false) := by
  rcases learn_cases sm inp s with ⟨h', -⟩ | ⟨-, h', -⟩
  · exact h'
  · simp [h'] at h

theorem learn_room {sm : Mac} {inp : Nat} {s : State} (h : hasRoom s.params s.tbl = true) :
    learn sm inp s = (s.setTbl (Tbl.write s.tbl sm inp), false) := by
  rcases learn_cases sm inp s with ⟨h', -⟩ | ⟨-, -, h'⟩
  · exact h'
  · simp [h'] at h

theorem learn_full {sm : Mac} {inp : Nat} {s : State} (hn : Tbl.lookup s.tbl sm = none)
    (h : hasRoom s.params s.tbl = false) : learn sm inp s = (s.setFault tblFullBit, true) := by
  simp [learn, hn, h]

@[simp] theorem learn_params (sm : Mac) (inp : Nat) (s : State) : (learn sm inp s).1.params = s.params := by
  rcases learn_cases sm inp s with ⟨h, -⟩ | ⟨h, -⟩ <;> simp [h]
@[simp] theorem learn_portCfg (sm : Mac) (inp : Nat) (s : State) : (learn sm inp s).1.portCfg = s.portCfg := by
  rcases learn_cases sm inp s with ⟨h, -⟩ | ⟨h, -⟩ <;> simp [h]
@[simp] theorem learn_w (sm : Mac) (inp : Nat) (s : State) : (learn sm inp s).1.w = s.w := by
  rcases learn_cases sm inp s with ⟨h, -⟩ | ⟨h, -⟩ <;> simp [h]
@[simp] theorem learn_frame (sm : Mac) (inp : Nat) (s : State) : (learn sm inp s).1.frame = s.frame := by
  rcases learn_cases sm inp s with ⟨h, -⟩ | ⟨h, -⟩ <;> simp [h]
@[simp] theorem learn_pending (sm : Mac) (inp : Nat) (s : State) : (learn sm inp s).1.pending = s.pending := by
  rcases learn_cases sm inp s with ⟨h, -⟩ | ⟨h, -⟩ <;> simp [h]
@[simp] theorem learn_out (sm : Mac) (inp : Nat) (s : State) : (learn sm inp s).1.out = s.out := by
  rcases learn_cases sm inp s with ⟨h, -⟩ | ⟨h, -⟩ <;> simp [h]
@[simp] theorem learn_free (sm : Mac) (inp : Nat) (s : State) : (learn sm inp s).1.free = s.free := by
  rcases learn_cases sm inp s with ⟨h, -⟩ | ⟨h, -⟩ <;> simp [h]

/-! ### The candidate set -/

@[simp] theorem mem_flood (P : Params) (inp p : Nat) : p ∈ flood P inp ↔ p < P.numPorts ∧ p ≠ inp := by
  simp [flood]

theorem flood_ascending (P : Params) (inp : Nat) : (flood P inp).Pairwise (· < ·) :=
  List.Pairwise.filter _ List.pairwise_lt_range

/-- A hit names the port stored, or nothing when it is the ingress port under DROP. -/
theorem hitList_cases (P : Params) (h inp : Nat) :
    (hitList P h inp = [h] ∧ (h ≠ inp ∨ P.samePortHit = .reflect)) ∨
    (hitList P h inp = [] ∧ h = inp ∧ P.samePortHit = .drop) := by
  unfold hitList
  by_cases hp : h = inp
  · subst hp; cases hs : P.samePortHit <;> simp
  · simp [hp]

/-- The candidate list depends on the parameters and TBL alone. -/
theorem candidateList_congr {s t : State} (hp : t.params = s.params) (ht : t.tbl = s.tbl) (dm : Mac) (inp : Nat) :
    candidateList t dm inp = candidateList s dm inp := by simp [candidateList, hp, ht]

theorem candidateList_ascending (s : State) (dm : Mac) (inp : Nat) :
    (candidateList s dm inp).Pairwise (· < ·) := by
  unfold candidateList
  split
  · exact flood_ascending _ _
  · split
    · exact flood_ascending _ _
    · next h _ => rcases hitList_cases s.params h inp with ⟨h', -⟩ | ⟨h', -⟩ <;> simp [h']

/-! ### The codec and the policy inside PROCESS -/

/-- A frame DECODE accepts has at least 14 bytes. -/
theorem decodeHeader_length {P : Params} {F : Frame} {h : Header} (hd : decodeHeader P F = some h) :
    14 ≤ F.length := by
  unfold decodeHeader at hd
  split at hd
  · cases hd
  · omega

/-- "DECODE sets `w.TAGGED = 1` only when the `require` holds" (R113). -/
theorem decodeHeader_tagged {P : Params} {F : Frame} {h : Header} (hd : decodeHeader P F = some h) :
    h.vlanId.isSome = isTagged P F := by
  unfold decodeHeader at hd
  unfold isTagged
  split at hd
  · cases hd
  · simp only at hd
    split at hd
    · next hc =>
      split at hd
      · cases hd
      · next hl =>
        injection hd with hd
        have : 18 ≤ F.length := by omega
        subst hd
        simp [hc, this]
    · next hc => injection hd with hd; subst hd; simp [hc]

/-- Inside PROCESS the policy never meets a refusal (R211, R242). -/
theorem policyOut_of_decoded {P : Params} {F : Frame} {h : Header} (hd : decodeHeader P F = some h) (sk : Kind)
    (sv : VlanId) (cfg : PortConfig) (len : Nat) : ∃ r, policyOut P sk sv cfg h.vlanId F len = .ok r := by
  have hl := decodeHeader_length hd
  have ht := decodeHeader_tagged hd
  unfold policyOut
  cases sk <;> cases cfg with
  | access dv =>
    first
    | exact ⟨_, rfl⟩
    | (by_cases hv : h.vlanId = some dv
       · have hT : isTagged P F = true := by rw [← ht, hv]; rfl
         simp [hv, stripTag, hT]
       · simp [hv])
  | trunk => first | exact ⟨_, rfl⟩ | simp [insertTag, show 12 ≤ F.length by omega]

/-- So the actions of any candidate list come out. -/
theorem actionsOf_of_decoded {s : State} {h : Header} (hd : decodeHeader s.params s.frame = some h)
    (hv : s.w.vlanId = h.vlanId) (c : List Nat) : ∃ actions, actionsOf s c = .ok actions := by
  induction c with
  | nil => exact ⟨_, rfl⟩
  | cons d rest ih =>
    obtain ⟨more, hm⟩ := ih
    have : ∃ a, policyAt (latchEgress d s) = .ok a := by
      unfold policyAt
      cases validCfg (latchEgress d s) (latchEgress d s).w.d with
      | none => exact ⟨_, rfl⟩
      | some c =>
        obtain ⟨r, hr⟩ := policyOut_of_decoded hd s.w.sk s.w.sv c.view s.w.len
        simp [hv, hr]
    obtain ⟨a, ha⟩ := this
    exact ⟨a.toList ++ more, by simp [actionsOf, ha, hm]⟩

/-- An action of the list is the policy's action for some candidate. -/
theorem mem_actionsOf {s : State} {c : List Nat} {actions : List Action} (h : actionsOf s c = .ok actions)
    (a : Action) : a ∈ actions ↔ ∃ d ∈ c, policyAt (latchEgress d s) = .ok (some a) := by
  induction c generalizing actions with
  | nil => simp only [actionsOf, Except.ok.injEq] at h; simp [← h]
  | cons d rest ih =>
    simp only [actionsOf] at h
    cases hp : policyAt (latchEgress d s) with
    | error e => simp [hp] at h
    | ok o =>
      cases hr : actionsOf s rest with
      | error e => simp [hp, hr] at h
      | ok more =>
        simp only [hp, hr, Except.ok.injEq] at h
        subst h
        simp only [List.mem_append, Option.mem_toList, List.mem_cons, exists_eq_or_imp, ih hr, hp,
          Except.ok.injEq]

/-- The action of a candidate names it. -/
theorem policyAt_port {s : State} {d : Nat} {a : Action} (h : policyAt (latchEgress d s) = .ok (some a)) :
    a.port = d := by
  unfold policyAt at h
  split at h
  · cases h
  · split at h
    · next r _ =>
      cases r with
      | none => simp [toAction] at h
      | some x => simp only [toAction, Except.ok.injEq, Option.some.injEq] at h; simp [← h]
    · cases h

/-- The actions' ports come in the candidates' order (R172). -/
theorem actionsOf_ports {s : State} {c : List Nat} {actions : List Action} (h : actionsOf s c = .ok actions)
    (hc : c.Pairwise (· < ·)) : (actions.map Action.port).Pairwise (· < ·) := by
  induction c generalizing actions with
  | nil => simp only [actionsOf, Except.ok.injEq] at h; simp [← h]
  | cons d rest ih =>
    have hx := List.pairwise_cons.1 hc
    simp only [actionsOf] at h
    cases hp : policyAt (latchEgress d s) with
    | error e => simp [hp] at h
    | ok o =>
      cases hr : actionsOf s rest with
      | error e => simp [hp, hr] at h
      | ok more =>
        simp only [hp, hr, Except.ok.injEq] at h
        subst h
        cases o with
        | none => simpa using ih hr hx.2
        | some a =>
          simp only [Option.toList_some, List.cons_append, List.nil_append, List.map_cons, List.pairwise_cons]
          refine ⟨fun p hpm => ?_, ih hr hx.2⟩
          obtain ⟨b, hb, rfl⟩ := List.mem_map.1 hpm
          obtain ⟨d', hd', hb'⟩ := (mem_actionsOf hr b).1 hb
          rw [policyAt_port hp, policyAt_port hb']
          exact hx.1 d' hd'

/-! ### PROCESS -/

/-- The state PROCESS has after phase 2 for a frame that decodes to `h`, with tbl_full. -/
def afterLearn (inp : Nat) (F : Frame) (h : Header) (s : State) : State × Bool :=
  learn h.sm inp (latchHeader h (rxAccept inp F s))

/-- What LEARN does inside PROCESS, on the state the frame found. -/
theorem afterLearn_cases (inp : Nat) (F : Frame) (h : Header) (s : State) :
    ((afterLearn inp F h s).2 = false ∧ (afterLearn inp F h s).1.tbl = Tbl.write s.tbl h.sm inp ∧
      (afterLearn inp F h s).1.fault = s.fault ∧
      ((Tbl.lookup s.tbl h.sm).isSome = true ∨ hasRoom s.params s.tbl = true)) ∨
    ((afterLearn inp F h s).2 = true ∧ (afterLearn inp F h s).1.tbl = s.tbl ∧
      (afterLearn inp F h s).1.fault = s.fault ||| tblFullBit ∧ Tbl.lookup s.tbl h.sm = none ∧
      hasRoom s.params s.tbl = false) := by
  rcases learn_cases h.sm inp (latchHeader h (rxAccept inp F s)) with ⟨e, hr⟩ | ⟨e, hn, hr⟩
  · refine .inl ?_; rw [afterLearn, e]; exact ⟨rfl, rfl, rfl, hr⟩
  · refine .inr ?_; rw [afterLearn, e]; exact ⟨rfl, rfl, rfl, hn, hr⟩

@[simp] theorem afterLearn_params (inp : Nat) (F : Frame) (h : Header) (s : State) :
    (afterLearn inp F h s).1.params = s.params := by simp [afterLearn]
@[simp] theorem afterLearn_portCfg (inp : Nat) (F : Frame) (h : Header) (s : State) :
    (afterLearn inp F h s).1.portCfg = s.portCfg := by simp [afterLearn]
@[simp] theorem afterLearn_frame (inp : Nat) (F : Frame) (h : Header) (s : State) :
    (afterLearn inp F h s).1.frame = F := by simp [afterLearn]
@[simp] theorem afterLearn_pending (inp : Nat) (F : Frame) (h : Header) (s : State) :
    (afterLearn inp F h s).1.pending = s.pending := by simp [afterLearn]
@[simp] theorem afterLearn_out (inp : Nat) (F : Frame) (h : Header) (s : State) :
    (afterLearn inp F h s).1.out = s.out := by simp [afterLearn]
@[simp] theorem afterLearn_free (inp : Nat) (F : Frame) (h : Header) (s : State) :
    (afterLearn inp F h s).1.free = s.free := by simp [afterLearn]
@[simp] theorem afterLearn_w (inp : Nat) (F : Frame) (h : Header) (s : State) : (afterLearn inp F h s).1.w =
    { s.w with inp := inp, len := F.length, dm := h.dm, sm := h.sm, et := h.et, vlanId := h.vlanId } := by
  simp [afterLearn]

/-- The candidates of a frame, looked up in the table as its own LEARN left it (R174). -/
def candidatesOf (inp : Nat) (F : Frame) (h : Header) (s : State) : List Nat :=
  candidateList (afterLearn inp F h s).1 h.dm inp

/-- Beyond MAX_FRAME_BYTES there is no step (U4). -/
theorem receive_overlong {inp : Nat} {F : Frame} {s : State} (h : s.params.maxFrameBytes < F.length) :
    receive inp F s = .refused .rxContract := by
  rw [receive, if_neg (by omega)]

theorem receive_malformed {inp : Nat} {F : Frame} {s : State} (hl : F.length ≤ s.params.maxFrameBytes)
    (hd : decodeHeader s.params F = none) :
    receive inp F s = .next (endFrame (fail .malformed false (rxAccept inp F s))) := by
  simp [receive, hl, phase1, hd]

theorem receive_decoded {inp : Nat} {F : Frame} {s : State} {h : Header} (hl : F.length ≤ s.params.maxFrameBytes)
    (hd : decodeHeader s.params F = some h) :
    receive inp F s = phase3 (afterLearn inp F h s).2 (afterLearn inp F h s).1 := by
  simp [receive, hl, phase1, hd, phase2, afterLearn]

theorem receive_unknownIngress {inp : Nat} {F : Frame} {s : State} {h : Header}
    (hl : F.length ≤ s.params.maxFrameBytes) (hd : decodeHeader s.params F = some h)
    (hc : validCfg s inp = none) :
    receive inp F s = .next (endFrame (fail .unknownIngress (afterLearn inp F h s).2 (afterLearn inp F h s).1)) := by
  rw [receive_decoded hl hd, phase3]
  simp [validCfg_congr (s := s) (afterLearn_params inp F h s) (afterLearn_portCfg inp F h s), hc]

theorem receive_configured {inp : Nat} {F : Frame} {s : State} {h : Header} {c : PortCfg}
    (hl : F.length ≤ s.params.maxFrameBytes) (hd : decodeHeader s.params F = some h)
    (hc : validCfg s inp = some c) :
    receive inp F s =
      phase5 (afterLearn inp F h s).2 (candidatesOf inp F h s) (latchIngress c (afterLearn inp F h s).1) := by
  rw [receive_decoded hl hd, phase3]
  simp only [afterLearn_w, validCfg_congr (s := s) (afterLearn_params inp F h s) (afterLearn_portCfg inp F h s), hc,
    latchIngress_w]
  rw [candidateList_congr (latchIngress_params _ _) (latchIngress_tbl _ _), candidatesOf]

/-- Phase 5 on the state the earlier phases leave: all-or-nothing, then every candidate's policy (R173). -/
theorem receive_unknownEgress {inp : Nat} {F : Frame} {s : State} {h : Header} {c : PortCfg}
    (hl : F.length ≤ s.params.maxFrameBytes) (hd : decodeHeader s.params F = some h)
    (hc : validCfg s inp = some c) (hu : ∃ d ∈ candidatesOf inp F h s, validCfg s d = none) :
    receive inp F s = .next (endFrame (fail .unknownEgress (afterLearn inp F h s).2
      (latchIngress c (afterLearn inp F h s).1))) := by
  rw [receive_configured hl hd hc, phase5, if_neg]
  obtain ⟨d, hm, hn⟩ := hu
  intro hall
  have := List.all_eq_true.1 hall d hm
  rw [validCfg_congr (s := s) (by simp) (by simp), hn] at this
  cases this

theorem receive_ok {inp : Nat} {F : Frame} {s : State} {h : Header} {c : PortCfg}
    (hl : F.length ≤ s.params.maxFrameBytes) (hd : decodeHeader s.params F = some h)
    (hc : validCfg s inp = some c) (hu : ∀ d ∈ candidatesOf inp F h s, (validCfg s d).isSome = true) :
    ∃ actions,
      actionsOf (latchIngress c (afterLearn inp F h s).1) (candidatesOf inp F h s) = .ok actions ∧
      receive inp F s = .next (endFrame (finish (afterLearn inp F h s).2 actions
        (latchIngress c (afterLearn inp F h s).1))) := by
  obtain ⟨actions, ha⟩ := actionsOf_of_decoded (s := latchIngress c (afterLearn inp F h s).1) (h := h)
    (by simpa using hd) (by simp) (candidatesOf inp F h s)
  refine ⟨actions, ha, ?_⟩
  rw [receive_configured hl hd hc, phase5, if_pos, ha]
  refine List.all_eq_true.2 fun d hm => ?_
  rw [validCfg_congr (s := s) (by simp) (by simp)]
  exact hu d hm

/-- Everything PROCESS can do within the RX contract: the four ends of a frame (R170, R207). -/
theorem receive_cases {inp : Nat} {F : Frame} {s : State} (hl : F.length ≤ s.params.maxFrameBytes) :
    (decodeHeader s.params F = none ∧
      receive inp F s = .next (endFrame (fail .malformed false (rxAccept inp F s)))) ∨
    ∃ h, decodeHeader s.params F = some h ∧
      ((validCfg s inp = none ∧ receive inp F s =
          .next (endFrame (fail .unknownIngress (afterLearn inp F h s).2 (afterLearn inp F h s).1))) ∨
       ∃ c, validCfg s inp = some c ∧
        (((∃ d ∈ candidatesOf inp F h s, validCfg s d = none) ∧ receive inp F s =
            .next (endFrame (fail .unknownEgress (afterLearn inp F h s).2
              (latchIngress c (afterLearn inp F h s).1)))) ∨
         ((∀ d ∈ candidatesOf inp F h s, (validCfg s d).isSome = true) ∧ ∃ actions,
            actionsOf (latchIngress c (afterLearn inp F h s).1) (candidatesOf inp F h s) = .ok actions ∧
            receive inp F s = .next (endFrame (finish (afterLearn inp F h s).2 actions
              (latchIngress c (afterLearn inp F h s).1)))))) := by
  cases hd : decodeHeader s.params F with
  | none => exact .inl ⟨rfl, receive_malformed hl hd⟩
  | some h =>
    refine .inr ⟨h, rfl, ?_⟩
    cases hc : validCfg s inp with
    | none => exact .inl ⟨rfl, receive_unknownIngress hl hd hc⟩
    | some c =>
      refine .inr ⟨c, rfl, ?_⟩
      by_cases hu : ∃ d ∈ candidatesOf inp F h s, validCfg s d = none
      · exact .inl ⟨hu, receive_unknownEgress hl hd hc hu⟩
      · have hu' : ∀ d ∈ candidatesOf inp F h s, (validCfg s d).isSome = true := fun d hm => by
          cases hv : validCfg s d with
          | none => exact absurd ⟨d, hm, hv⟩ hu
          | some _ => rfl
        exact .inr ⟨hu', receive_ok hl hd hc hu'⟩

end Sys2Proof.Machine
end

