-- ==== Sys2Proof/Laws/Exec.lean ====
section
/-! SUPPORT. What any one operation can do to the state, said once: `exec_shape`. Rules about all operations are case
analyses over it. -/

namespace Sys2Proof.Machine

theorem next_inj {a t : State} (h : (Host.Outcome.next a : Host.Outcome State Fault Refusal) = .next t) : t = a := by
  injection h with h; exact h.symm

/-- Everything a frame changes and leaves: one RESULT with its actions, the FAULT bits that go with it, at most one
table entry, and free values in the registers. -/
theorem receive_effect {inp : Nat} {F : Frame} {s t : State} (h : receive inp F s = .next t) :
    F.length ≤ s.params.maxFrameBytes ∧ t.params = s.params ∧ t.pending = s.pending ∧ t.portCfg = s.portCfg ∧
    (∃ r actions, t.out = s.out ++ [.frame r actions] ∧
      t.fault = s.fault ||| (if r.tblFull then tblFullBit else 0#4) ||| faultBit r.code ∧
      (r.tblFull = true → ∃ sm, Tbl.lookup s.tbl sm = none ∧ hasRoom s.params s.tbl = false)) ∧
    t.w = Work.unspecified s.params s.free ∧ t.frame = (Config.freeFrame s.free).take s.params.maxFrameBytes ∧
    (t.tbl = s.tbl ∨ ∃ sm, t.tbl = Tbl.write s.tbl sm inp ∧
      ((Tbl.lookup s.tbl sm).isSome = true ∨ hasRoom s.params s.tbl = true)) := by
  by_cases hm : F.length ≤ s.params.maxFrameBytes
  · refine ⟨hm, ?_⟩
    rcases receive_cases (inp := inp) hm with
      ⟨_, e⟩ | ⟨hh, hd, ⟨_, e⟩ | ⟨c, hc, ⟨_, e⟩ | ⟨hall, acts, ha, e⟩⟩⟩ <;>
      rw [e] at h <;> have h := next_inj h <;> subst h
    · exact ⟨rfl, rfl, rfl, ⟨⟨.malformed, false⟩, [], rfl, by simp, by simp⟩, rfl, rfl, .inl rfl⟩
    all_goals
      simp only [endFrame_params, fail_params, afterLearn_params, latchIngress_params, finish_params,
        endFrame_pending, fail_pending, finish_pending, latchIngress_pending, afterLearn_pending, endFrame_portCfg,
        fail_portCfg, finish_portCfg, latchIngress_portCfg, afterLearn_portCfg, endFrame_out, fail_out, finish_out,
        latchIngress_out, afterLearn_out, endFrame_w, endFrame_frame, fail_free, finish_free, latchIngress_free,
        afterLearn_free, endFrame_fault, fail_fault, finish_fault, latchIngress_fault, endFrame_tbl, fail_tbl,
        finish_tbl, latchIngress_tbl]
      refine ⟨trivial, trivial, trivial, ⟨⟨_, _⟩, _, rfl, ?_⟩, trivial, trivial, ?_⟩
      · rcases afterLearn_cases inp F hh s with ⟨e1, e2, e3, e4⟩ | ⟨e1, e2, e3, e4, e5⟩ <;> rw [e1, e3]
        · exact ⟨by simp [faultBit], by simp⟩
        · exact ⟨by simp [faultBit], fun _ => ⟨_, e4, e5⟩⟩
      · rcases afterLearn_cases inp F hh s with ⟨e1, e2, e3, e4⟩ | ⟨e1, e2, e3, e4, e5⟩ <;> rw [e2]
        · exact .inr ⟨_, rfl, e4⟩
        · exact .inl rfl
  · simp [receive, hm] at h

/-- A RESULT row's next state is that of the PROCESS it reports. -/
theorem reporting_next {row : Result → List Action → Bool} {s t : State} (h : reporting row s = .next t) :
    ∃ inp F rest, nextRx s = some (inp, F, rest) ∧ receive inp F (s.setPending rest) = .next t := by
  unfold reporting at h
  split at h
  · cases h
  · next inp F rest hn =>
    split at h
    · next u hr =>
      split at h
      · exact ⟨inp, F, rest, hn, by rw [hr, next_inj h]⟩
      · cases h
    · cases h
    · cases h

/-- A RESULT row is selected by how the PROCESS of the next RX transaction ends, and by nothing else. -/
theorem reporting_of_receive {row : Result → List Action → Bool} {inp : Nat} {F : Frame} {rest : List Txn}
    {s t : State} {r : Result} {actions : List Action} (hn : nextRx s = some (inp, F, rest))
    (h : receive inp F (s.setPending rest) = .next t) (ho : t.out = s.out ++ [.frame r actions]) :
    reporting row s = if row r actions then .next t else .refused .rowNotSelected := by
  simp [reporting, hn, h, lastFrame, ho]

theorem nextRx_cons {s : State} {inp : Nat} {F : Frame} {rest : List Txn}
    (hq : s.pending = { line := .rx, fields := [inp, F.length], bytes := F } :: rest)
    (hp : portOk s.params inp = true) (hl : F.length ≤ s.params.maxFrameBytes) :
    nextRx s = some (inp, F, rest) := by
  simp [nextRx, hq, decode_rx hp hl]

/-- The RX transaction next in the queue, taken apart. -/
theorem nextRx_some {s : State} {inp : Nat} {F : Frame} {rest : List Txn} (h : nextRx s = some (inp, F, rest)) :
    s.pending = { line := .rx, fields := [inp, F.length], bytes := F } :: rest ∧ portOk s.params inp = true ∧
      F.length ≤ s.params.maxFrameBytes := by
  unfold nextRx at h
  split at h
  · cases h
  · next t q hq =>
    split at h
    · next inp' len i hline hfields hd =>
      rcases t with ⟨line, fields, bytes⟩
      simp only at hline hfields
      subst hline hfields
      simp only [Option.some.injEq, Prod.mk.injEq] at h
      obtain ⟨rfl, rfl, rfl⟩ := h
      simp only [decode, require_eq_ok, Bool.and_eq_true, decide_eq_true_eq] at hd
      obtain ⟨hp, ⟨rfl, hl⟩, -⟩ := hd
      exact ⟨hq, hp, hl⟩
    · cases h

/-- The seven forms of a next state: a frame, the frame a RESULT row answers, a returned value, DECODE's header, LEARN,
a register write, RESET. -/
inductive ExecShape (i : Instr) (s t : State) : Prop
  | frame (inp : Nat) (F : Frame) (hl : i.line = .rx ∨ i.line = .process) (h : receive inp F s = .next t)
      (hp : ∀ P, i.wf P = true → portOk P inp = true)
  | reports (inp : Nat) (F : Frame) (rest : List Txn) (hl : i.line = .result ∨ i.line = .tblFull)
      (hn : nextRx s = some (inp, F, rest)) (h : receive inp F (s.setPending rest) = .next t)
  | returns (e : Event) (he : ∀ r actions, e ≠ .frame r actions) (hl : ∀ tf, e ≠ .learned tf) (h : t = s.emit e)
  | header (hdr : Header) (h : t = (latchHeader hdr s).emit (.decoded (some hdr)))
  | learns (sm : Mac) (inp : Nat) (hl : i.line = .learn) (h : t = (learn sm inp s).1.emit (.learned (learn sm inp s).2))
      (hp : ∀ P, i.wf P = true → portOk P inp = true)
  | config (p : Nat) (c : PortCfg) (hl : i.line = .cfgWrite ∨ i.line = .portCfg)
      (h : t = s.setPortCfg (s.portCfg.set p c))
  | resets (hi : i = .reset)
      (h : t = { State.resetAt s.params s.free with pending := s.pending, out := s.out })

theorem returnBytes_emit {r : Except Refusal Frame} {s t : State} (h : returnBytes r s = .next t) :
    ∃ F, t = s.emit (.bytes F) := by
  unfold returnBytes at h
  split at h
  · exact ⟨_, next_inj h⟩
  · cases h

theorem returnPolicy_emit {d : Nat} {r : Except Refusal (Option (Frame × Nat))} {s t : State}
    (h : returnPolicy d r s = .next t) : ∃ a, t = s.emit (.policy a) := by
  unfold returnPolicy at h
  split at h
  · exact ⟨_, next_inj h⟩
  · cases h

theorem shape_returns {i : Instr} {s t : State} {e : Event} (he : ∀ r actions, e ≠ .frame r actions)
    (hl : ∀ tf, e ≠ .learned tf) (h : t = s.emit e) : ExecShape i s t := .returns e he hl h

theorem exec_shape {i : Instr} {s t : State} (h : exec i s = .next t) : ExecShape i s t := by
  cases i with
  | short inp F =>
    simp only [exec, execShort] at h; split at h
    · exact .frame inp _ (.inl rfl) h (by simp only [Instr.wf, Bool.and_eq_true]; exact fun _ h => h.1)
    · cases h
  | untagged inp dm sm et pl =>
    simp only [exec, execUntagged] at h; split at h
    · cases h
    · exact .frame inp _ (.inl rfl) h (by simp only [Instr.wf, Bool.and_eq_true]; exact fun _ h => h.1.1)
  | shortTagged inp dm sm r =>
    simp only [exec, execShortTagged] at h; split at h
    · exact .frame inp _ (.inl rfl) h (by simp only [Instr.wf, Bool.and_eq_true]; exact fun _ h => h.1)
    · cases h
  | tagged inp dm sm pri vid et pl =>
    exact .frame inp _ (.inl rfl) h (by simp only [Instr.wf, Bool.and_eq_true]; exact fun _ h => h.1)
  | process inp F len =>
    simp only [exec, execProcess] at h; split at h
    · exact .frame inp _ (.inr rfl) h (by simp only [Instr.wf, Bool.and_eq_true]; exact fun _ h => h.1)
    · cases h
  | learn sm inp => exact .learns sm inp rfl (next_inj h) (fun _ h => h)
  | decode =>
    simp only [exec, execDecode] at h; split at h
    · split at h
      · exact .header _ (next_inj h)
      · exact shape_returns (h := next_inj h) (by simp) (by simp)
    · cases h
  | cfgWrite => exact .config _ _ (.inl rfl) (writePortCfg_cases h).2
  | portCfg => exact .config _ _ (.inr rfl) (writePortCfg_cases h).2
  | reset => exact .resets rfl (next_inj h)
  | ok => obtain ⟨_, _, _, hn, h⟩ := reporting_next (by simpa only [exec, execOk] using h); exact .reports _ _ _ (.inl rfl) hn h
  | malformed => obtain ⟨_, _, _, hn, h⟩ := reporting_next (by simpa only [exec, execMalformed] using h); exact .reports _ _ _ (.inl rfl) hn h
  | unknownIngress => obtain ⟨_, _, _, hn, h⟩ := reporting_next (by simpa only [exec, execUnknownIngress] using h); exact .reports _ _ _ (.inl rfl) hn h
  | unknownEgress => obtain ⟨_, _, _, hn, h⟩ := reporting_next (by simpa only [exec, execUnknownEgress] using h); exact .reports _ _ _ (.inl rfl) hn h
  | tblFull => obtain ⟨_, _, _, hn, h⟩ := reporting_next (by simpa only [exec, execTblFull] using h); exact .reports _ _ _ (.inr rfl) hn h
  | tag => exact shape_returns (h := next_inj h) (by simp) (by simp)
  | bcast => exact shape_returns (h := next_inj h) (by simp) (by simp)
  | known =>
    simp only [exec, execKnown] at h; split at h
    · cases h
    · split at h
      · exact shape_returns (h := next_inj h) (by simp) (by simp)
      · cases h
  | unknown =>
    simp only [exec, execUnknown] at h; split at h
    · cases h
    · split at h
      · cases h
      · exact shape_returns (h := next_inj h) (by simp) (by simp)
  | aaFwd => simp only [exec, execAaFwd] at h; obtain ⟨e, h⟩ := returnPolicy_emit h; exact shape_returns (h := h) (by simp) (by simp)
  | aaDrop =>
    simp only [exec, execAaDrop] at h; split at h
    · cases h
    · obtain ⟨e, h⟩ := returnPolicy_emit h; exact shape_returns (h := h) (by simp) (by simp)
  | atTag => obtain ⟨e, h⟩ := returnPolicy_emit h; exact shape_returns (h := h) (by simp) (by simp)
  | taStrip => obtain ⟨e, h⟩ := returnPolicy_emit h; exact shape_returns (h := h) (by simp) (by simp)
  | taDrop =>
    simp only [exec, execTaDrop] at h; split at h
    · cases h
    · obtain ⟨e, h⟩ := returnPolicy_emit h; exact shape_returns (h := h) (by simp) (by simp)
  | ttFwd => simp only [exec, execTtFwd] at h; obtain ⟨e, h⟩ := returnPolicy_emit h; exact shape_returns (h := h) (by simp) (by simp)
  | policy =>
    simp only [exec, execPolicy] at h; split at h
    · split at h
      · obtain ⟨e, h⟩ := returnPolicy_emit h; exact shape_returns (h := h) (by simp) (by simp)
      · cases h
    · cases h
  | encodeTag => exact shape_returns (h := next_inj h) (by simp) (by simp)
  | insertTag => obtain ⟨e, h⟩ := returnBytes_emit h; exact shape_returns (h := h) (by simp) (by simp)
  | stripTag => obtain ⟨e, h⟩ := returnBytes_emit h; exact shape_returns (h := h) (by simp) (by simp)
  | lookup => exact shape_returns (h := next_inj h) (by simp) (by simp)
  | candidates => exact shape_returns (h := next_inj h) (by simp) (by simp)
  | cfgRead =>
    simp only [exec, execCfgRead] at h; split at h
    · exact shape_returns (h := next_inj h) (by simp) (by simp)
    · cases h
  | faultRead => exact shape_returns (h := next_inj h) (by simp) (by simp)

end Sys2Proof.Machine
end

