-- ==== Sys2Proof/Laws/PerInstr.lean ====
section
/-! SUPPORT. Per-instruction families. `LineSelects` (R105): an operation is decoded only from a transaction on its own
line, and its encoding goes out on that line, so no bit pattern of another line can be taken for it. -/

namespace Sys2Proof.Laws.LineSelects

/-- The statement of the family for one operation. -/
def Statement (i : Instr) : Prop :=
  ∀ P : Params, (encode P i).line = i.line ∧ ∀ t : Txn, decode P t = .ok i → t.line = i.line

theorem all (i : Instr) : Statement i := fun _ => ⟨rfl, fun _ h => decode_line h⟩

theorem short (inp : Nat) (F : Frame) : Statement (.short inp F) := all _
theorem untagged (inp : Nat) (dm sm : Mac) (et : Half) (payload : Frame) : Statement (.untagged inp dm sm et payload) := all _
theorem shortTagged (inp : Nat) (dm sm : Mac) (rest : Frame) : Statement (.shortTagged inp dm sm rest) := all _
theorem tagged (inp : Nat) (dm sm : Mac) (pri : BitVec 4) (vid : VlanId) (et : Half) (payload : Frame) : Statement (.tagged inp dm sm pri vid et payload) := all _
theorem tag (vid : VlanId) : Statement (.tag vid) := all _
theorem bcast (inp : Nat) : Statement (.bcast inp) := all _
theorem known (dm : Mac) (inp : Nat) : Statement (.known dm inp) := all _
theorem unknown (dm : Mac) (inp : Nat) : Statement (.unknown dm inp) := all _
theorem aaFwd (d : Nat) (vlan : VlanId) (F : Frame) : Statement (.aaFwd d vlan F) := all _
theorem aaDrop (d : Nat) (sv dv : VlanId) (F : Frame) : Statement (.aaDrop d sv dv F) := all _
theorem atTag (d : Nat) (sv : VlanId) (F : Frame) : Statement (.atTag d sv F) := all _
theorem taStrip (d : Nat) (vlan : VlanId) (F : Frame) : Statement (.taStrip d vlan F) := all _
theorem taDrop (d : Nat) (dv : VlanId) (vlanId : Option VlanId) (F : Frame) : Statement (.taDrop d dv vlanId F) := all _
theorem ttFwd (d : Nat) (F : Frame) : Statement (.ttFwd d F) := all _
theorem decode (F : Frame) (len : Nat) : Statement (.decode F len) := all _
theorem encodeTag (vlanId : Nat) : Statement (.encodeTag vlanId) := all _
theorem insertTag (F : Frame) (vlanId : Nat) : Statement (.insertTag F vlanId) := all _
theorem stripTag (F : Frame) : Statement (.stripTag F) := all _
theorem learn (sm : Mac) (inp : Nat) : Statement (.learn sm inp) := all _
theorem lookup (dm : Mac) : Statement (.lookup dm) := all _
theorem candidates (dm : Mac) (inp : Nat) : Statement (.candidates dm inp) := all _
theorem policy (sk : Kind) (sv : VlanId) (vlanId : Option VlanId) (F : Frame) (len : Nat) (d : Nat) : Statement (.policy sk sv vlanId F len d) := all _
theorem process (inp : Nat) (F : Frame) (len : Nat) : Statement (.process inp F len) := all _
theorem cfgWrite (p : Nat) (valid : Bool) (kind : Kind) (vlan : VlanId) : Statement (.cfgWrite p valid kind vlan) := all _
theorem cfgRead (p : Nat) : Statement (.cfgRead p) := all _
theorem faultRead : Statement (.faultRead) := all _
theorem reset : Statement (.reset) := all _
theorem ok (tblFull : Bool) (actions : List Action) : Statement (.ok tblFull actions) := all _
theorem malformed : Statement (.malformed) := all _
theorem unknownIngress (tblFull : Bool) : Statement (.unknownIngress tblFull) := all _
theorem unknownEgress (tblFull : Bool) : Statement (.unknownEgress tblFull) := all _
theorem tblFull : Statement (.tblFull) := all _
theorem portCfg (p : Nat) (word : BitVec 14) : Statement (.portCfg p word) := all _

end Sys2Proof.Laws.LineSelects
end

