-- ==== Sys2Proof/Laws/Safety.lean ====
section
/-! SUPPORT. The functions of the machine against the terms of Safety.lean: the codec by offsets, the table as a set of
pairs, the candidate set, the policy rows. -/

namespace Sys2Proof.Machine

/-! ### The codec -/

theorem be16_eq_iff (F : Frame) (a : Nat) (x : Half) :
    be16 (byteAt F a) (byteAt F (a + 1)) = x ↔ halfAt F a = x.toNat := by
  rw [← BitVec.toNat_inj, be16_toNat]; rfl

theorem mac48_macAt (F : Frame) (a : Nat) : (mac48 F a).toNat = macAt F a := mac48_toNat F a

theorem tciVid_halfAt (F : Frame) (a : Nat) :
    (tciVid (be16 (byteAt F a) (byteAt F (a + 1)))).toNat = halfAt F a % 4096 := by
  simp only [tciVid, BitVec.toNat_ofNat, be16_toNat, halfAt]; omega

theorem hasHeader_iff (P : Params) (F : Frame) (h : Header) : hasHeader P F h ↔ decodeHeader P F = some h := by
  have hb := be16_eq_iff F 12 P.tpid
  unfold decodeHeader hasHeader
  by_cases h14 : F.length < 14
  · simp [h14]
  · simp only [if_neg h14]
    by_cases hc : halfAt F 12 = P.tpid.toNat
    · rw [if_pos (hb.2 hc)]
      by_cases h18 : F.length < 18
      · simp [h18, hc]
      · simp only [if_neg h18, Option.some.injEq]
        constructor
        · rintro ⟨_, hd, hs, (⟨hn, _⟩ | ⟨_, _, he, vid, hv, hvid⟩)⟩
          · exact absurd hc hn
          · cases h; simp only [Header.mk.injEq]
            refine ⟨BitVec.eq_of_toNat_eq (by rw [mac48_macAt, hd]), BitVec.eq_of_toNat_eq (by rw [mac48_macAt, hs]),
              BitVec.eq_of_toNat_eq (by rw [be16_toNat, he]; rfl), ?_⟩
            simp only at hv
            rw [hv, ← BitVec.eq_of_toNat_eq (hvid.trans (tciVid_halfAt F 14).symm)]
        · rintro rfl
          exact ⟨by omega, mac48_macAt _ _, mac48_macAt _ _,
            .inr ⟨hc, by omega, be16_toNat _ _, _, rfl, tciVid_halfAt F 14⟩⟩
    · rw [if_neg (by rw [hb]; exact hc)]
      simp only [Option.some.injEq]
      constructor
      · rintro ⟨_, hd, hs, (⟨_, he, hv⟩ | ⟨h', _⟩)⟩
        · cases h; simp only [Header.mk.injEq]
          exact ⟨BitVec.eq_of_toNat_eq (by rw [mac48_macAt, hd]), BitVec.eq_of_toNat_eq (by rw [mac48_macAt, hs]),
            BitVec.eq_of_toNat_eq (by rw [be16_toNat, he]; rfl), hv.symm⟩
        · exact absurd h' hc
      · rintro rfl
        exact ⟨by omega, mac48_macAt _ _, mac48_macAt _ _, .inl ⟨hc, be16_toNat _ _, rfl⟩⟩

theorem isMalformed_iff (P : Params) (F : Frame) : isMalformed P F ↔ decodeHeader P F = none := by
  have hb := be16_eq_iff F 12 P.tpid
  unfold isMalformed decodeHeader
  by_cases h14 : F.length < 14
  · simp [h14]
  · by_cases hc : halfAt F 12 = P.tpid.toNat
    · by_cases h18 : F.length < 18 <;> simp [h14, hc, hb, h18]
    · simp [h14, hc, hb]

theorem isTagged_iff (P : Params) (F : Frame) :
    isTagged P F = true ↔ 18 ≤ F.length ∧ halfAt F 12 = P.tpid.toNat := by
  simp [isTagged, be16_eq_iff F 12 P.tpid]

theorem tagBytes_length (P : Params) (v : Nat) : (tagBytes P v).length = 4 := rfl

theorem encodeTag_tagBytes (P : Params) (v : Nat) : encodeTag P v = tagBytes P v := by
  have := P.tpid.isLt
  simp only [encodeTag, bytes16, tagBytes, List.cons_append, List.nil_append, List.cons.injEq, and_true, true_and]
  refine ⟨?_, ?_, ?_⟩ <;> apply BitVec.eq_of_toNat_eq <;> simp only [BitVec.toNat_ofNat] <;> omega

theorem bytes32_tagWord (P : Params) (vid : VlanId) : bytes32 (tagWord P vid) = tagBytes P vid.toNat := by
  have h1 := P.tpid.isLt
  have h2 := vid.isLt
  simp only [bytes32, bytes16, tagWord, tagBytes, List.cons_append, List.nil_append, List.cons.injEq, and_true]
  refine ⟨?_, ?_, ?_, ?_⟩ <;> apply BitVec.eq_of_toNat_eq <;> simp only [BitVec.toNat_ofNat] <;> omega

theorem insertTag_ok {P : Params} {F : Frame} (v : Nat) (h : 12 ≤ F.length) :
    insertTag P F v = .ok (F.take 12 ++ tagBytes P v ++ F.drop 12) := by
  simp [insertTag, h, encodeTag_tagBytes]

theorem stripTag_ok {P : Params} {F : Frame} (h : isTagged P F = true) :
    stripTag P F = .ok (F.take 12 ++ F.drop 16) := by simp [stripTag, h]

/-! ### The MAC table as a set of pairs -/

theorem mem_tblWrite {t : List (Mac × Nat)} (h : Tbl.wf t) (sm : Mac) (inp : Nat) (m : Mac) (p : Nat) :
    (m, p) ∈ Tbl.write t sm inp ↔ if m = sm then p = inp else (m, p) ∈ t := by
  rw [← Tbl.lookup_eq_some_iff (Tbl.write_wf h _ _), Tbl.lookup_write]
  by_cases hm : sm = m
  · subst hm; simp [eq_comm]
  · simp [hm, Ne.symm hm, Tbl.lookup_eq_some_iff h]

theorem canLearn_iff {s : State} (h : Tbl.wf s.tbl) (sm : Mac) :
    canLearn s sm ↔ (Tbl.lookup s.tbl sm).isSome = true ∨ hasRoom s.params s.tbl = true := by
  unfold canLearn
  apply or_congr
  · rw [Option.isSome_iff_exists]; exact exists_congr fun p => (Tbl.lookup_eq_some_iff h sm p).symm
  · unfold hasRoom; cases s.params.tableDepth <;> simp

theorem learnEffect_write {s : State} {sm : Mac} (inp : Nat) (h : Tbl.wf s.tbl) (hc : canLearn s sm) :
    learnEffect s sm inp (Tbl.write s.tbl sm inp) false :=
  ⟨fun _ => ⟨rfl, Tbl.write_wf h _ _, fun m p => mem_tblWrite h sm inp m p⟩, fun hn => absurd hc hn⟩

theorem learnEffect_unique {s : State} {sm : Mac} {inp : Nat} {t u : List (Mac × Nat)} {f g : Bool}
    (h1 : learnEffect s sm inp t f) (h2 : learnEffect s sm inp u g) : t = u ∧ f = g := by
  by_cases hc : canLearn s sm
  · obtain ⟨e1, w1, m1⟩ := h1.1 hc
    obtain ⟨e2, w2, m2⟩ := h2.1 hc
    refine ⟨Tbl.ext w1 w2 fun m => ?_, e1.trans e2.symm⟩
    apply Option.ext; intro p
    rw [Tbl.lookup_eq_some_iff w1, Tbl.lookup_eq_some_iff w2, m1, m2]
  · obtain ⟨e1, w1⟩ := h1.2 hc
    obtain ⟨e2, w2⟩ := h2.2 hc
    exact ⟨w1.trans w2.symm, e1.trans e2.symm⟩

/-- What LEARN does inside PROCESS. -/
theorem afterLearn_effect {s : State} (hw : Tbl.wf s.tbl) (inp : Nat) (F : Frame) (h : Header) :
    learnEffect s h.sm inp (afterLearn inp F h s).1.tbl (afterLearn inp F h s).2 ∧
    ∀ bit, (afterLearn inp F h s).1.fault ||| bit = faultAfter s.fault (afterLearn inp F h s).2 bit := by
  rcases afterLearn_cases inp F h s with ⟨e1, e2, e3, e4⟩ | ⟨e1, e2, e3, e4, e5⟩ <;> rw [e1, e2, e3]
  · exact ⟨learnEffect_write inp hw ((canLearn_iff hw _).2 e4), fun b => by simp [faultAfter]⟩
  · have : ¬ canLearn s h.sm := by rw [canLearn_iff hw]; simp [e4, e5]
    exact ⟨⟨fun hc => absurd hc this, fun _ => ⟨rfl, rfl⟩⟩, fun b => by simp [faultAfter, tblFullBit]⟩

theorem afterLearn_wf {s : State} (hw : Tbl.wf s.tbl) (inp : Nat) (F : Frame) (h : Header) :
    Tbl.wf (afterLearn inp F h s).1.tbl := by
  rcases afterLearn_cases inp F h s with ⟨-, e, -⟩ | ⟨-, e, -⟩ <;> rw [e]
  · exact Tbl.write_wf hw _ _
  · exact hw

/-! ### The egress mapper -/

theorem holds_iff {s : State} {p : Nat} {cfg : PortConfig} :
    s.holds p cfg ↔ ∃ c, validCfg s p = some c ∧ c.view = cfg := by simp [State.holds]

theorem holds_unique {s : State} {p : Nat} {a b : PortConfig} (ha : s.holds p a) (hb : s.holds p b) : a = b := by
  unfold State.holds at ha hb; rw [ha] at hb; simpa using hb

theorem mem_candidateList {s : State} (h : Tbl.wf s.tbl) (dm : Mac) (inp p : Nat) :
    p ∈ candidateList s dm inp ↔ isCandidate s.params s.tbl dm inp p := by
  unfold candidateList isCandidate
  by_cases hb : dm = bcastMac
  · simp [hb]
  · simp only [if_neg hb]
    cases hl : Tbl.lookup s.tbl dm with
    | none =>
      have : ∀ q, (dm, q) ∉ s.tbl := fun q hq => by rw [← Tbl.lookup_eq_some_iff h, hl] at hq; cases hq
      simp [this]
    | some q =>
      have hu : ∀ r, (dm, r) ∈ s.tbl ↔ r = q := fun r => by
        rw [← Tbl.lookup_eq_some_iff h, hl]; simp [eq_comm]
      have hn : ¬ ∀ r, ¬ r = q := fun hc => hc q rfl
      simp only [hu, hb, false_or, ne_eq, not_false_iff, true_and, hn, false_and]
      rcases hitList_cases s.params q inp with ⟨e, h'⟩ | ⟨e, h1, h2⟩ <;> rw [e]
      · simp only [List.mem_singleton]
        refine ⟨fun he => ⟨he, he ▸ h'⟩, fun hx => hx.1⟩
      · simp only [List.not_mem_nil, false_iff, not_and, not_or, h2]
        rintro rfl; simp [h1]

theorem mem_candidatesOf {s : State} {inp : Nat} {F : Frame} {h : Header} {d : Nat} {tbl : List (Mac × Nat)}
    {tf : Bool} (hw : Tbl.wf s.tbl) (he : learnEffect s h.sm inp tbl tf) :
    d ∈ candidatesOf inp F h s ↔ isCandidate s.params tbl h.dm inp d := by
  rw [(learnEffect_unique he (afterLearn_effect hw inp F h).1).1, candidatesOf,
    mem_candidateList (afterLearn_wf hw inp F h), afterLearn_params]

/-- Phase 5 gives a candidate the action of its policy row and no other. -/
theorem policyAt_iff {s : State} {inp d : Nat} {F : Frame} {h : Header} {c : PortCfg} {a : Action}
    (hd : decodeHeader s.params F = some h) :
    policyAt (latchEgress d (latchIngress c (afterLearn inp F h s).1)) = .ok (some a) ↔
      a.port = d ∧ ∃ dst, s.holds a.port dst ∧ forwards s.params c.view dst h.vlanId F a.bytes a.length := by
  have hv : ∀ x, validCfg (latchEgress d (latchIngress c (afterLearn inp F h s).1)) x = validCfg s x :=
    fun x => validCfg_congr (by simp) (by simp) x
  have hlen := decodeHeader_length hd
  have ht := decodeHeader_tagged hd
  unfold policyAt
  rw [hv]
  simp only [latchEgress_w]
  constructor
  · intro hh
    split at hh
    · cases hh
    · next dc hdc =>
      simp at hh
      split at hh
      · next r hr =>
        cases r with
        | none => simp [toAction] at hh
        | some x =>
          simp [toAction] at hh; subst hh
          refine ⟨rfl, dc.view, holds_iff.2 ⟨_, hdc, rfl⟩, ?_⟩
          unfold forwards
          rcases c with ⟨_, sk, sv⟩
          rcases dc with ⟨_, dk, dv⟩
          cases sk <;> cases dk <;> simp [PortCfg.view, policyOut] at hr ⊢
          · obtain ⟨h1, rfl⟩ := hr; simp [h1]
          · rw [insertTag_ok _ (by omega)] at hr; simp at hr; simp [← hr]
          · split at hr
            · next hvi =>
              have hT : isTagged s.params F = true := by rw [← ht, hvi]; rfl
              simp [stripTag, hT] at hr
              rw [isTagged_iff] at hT
              simp [← hr, hvi]; omega
            · cases hr
          · simp [← hr]
      · cases hh
  · rintro ⟨rfl, dst, hdst, hf⟩
    obtain ⟨dc, hdc, rfl⟩ := holds_iff.1 hdst
    rw [hdc]
    rcases a with ⟨p, bytes, len⟩
    rcases c with ⟨_, sk, sv⟩
    rcases dc with ⟨_, dk, dv⟩
    cases sk <;> cases dk <;> simp [PortCfg.view, forwards] at hf <;> simp [PortCfg.view, policyOut]
    · obtain ⟨rfl, rfl, rfl⟩ := hf; simp [toAction]
    · rw [insertTag_ok _ (by omega)]; simp [toAction, hf]
    · obtain ⟨hvi, rfl, hl⟩ := hf
      have hT : isTagged s.params F = true := by rw [← ht, hvi]; rfl
      simp [hvi, stripTag, hT, toAction]; omega
    · obtain ⟨rfl, rfl⟩ := hf; simp [toAction]

/-! ### Derived widths -/

theorem clog2From_spec (n : Nat) : ∀ fuel w, n ≤ 2 ^ (w + fuel) →
    n ≤ 2 ^ clog2From n fuel w ∧ ∀ v, w ≤ v → n ≤ 2 ^ v → clog2From n fuel w ≤ v := by
  intro fuel
  induction fuel with
  | zero => intro w h; exact ⟨h, fun v hv _ => hv⟩
  | succ k ih =>
    intro w h
    unfold clog2From
    split
    · next hh => exact ⟨hh, fun v hv _ => hv⟩
    · next hh =>
      have := ih (w + 1) (by rw [show w + 1 + k = w + (k + 1) by omega]; exact h)
      refine ⟨this.1, fun v hv hn => this.2 v ?_ hn⟩
      rcases Nat.lt_or_ge w v with h' | h'
      · exact h'
      · exact absurd (show n ≤ 2 ^ w by rw [show w = v by omega]; exact hn) hh

/-- `clog2 n` is the least `w` with `n ≤ 2 ^ w`. -/
theorem clog2_spec (n : Nat) : n ≤ 2 ^ clog2 n ∧ ∀ v, n ≤ 2 ^ v → clog2 n ≤ v := by
  have := clog2From_spec n n 0 (by simp; exact Nat.le_of_lt Nat.lt_two_pow_self)
  exact ⟨this.1, fun v => this.2 v (by omega)⟩

end Sys2Proof.Machine
end

