-- ==== Sys2Proof/Tests/Slice0.lean ====
section
/-! SUPPORT. The model's own tests: well-formedness refuses each ill-formed term; the word of every row, written out
from spec/30_encoding.md, decodes to its operation; one step per operation with the outcome spec/95_test_vectors.md
gives (its vector numbers stand in the comments); and a witness for the hypotheses of every statement. -/

namespace Sys2Proof.Tests

open Sys2Proof.Machine

/-! ### Small states and frames -/

def hex (bytes : List Nat) : Frame := bytes.map (BitVec.ofNat 8)

def stA : Mac := 0x02000000000a#48
def stB : Mac := 0x02000000000b#48
def stC : Mac := 0x02000000000c#48

def mA : List Nat := [2, 0, 0, 0, 0, 0x0a]
def mB : List Nat := [2, 0, 0, 0, 0, 0x0b]
def mC : List Nat := [2, 0, 0, 0, 0, 0x0c]
def mBc : List Nat := [0xff, 0xff, 0xff, 0xff, 0xff, 0xff]

/-- The conventions of spec/95_test_vectors.md with `n` ports. -/
def prm (n : Nat) : Params := { Params.initial with numPorts := n }

def acc (v : VlanId) : PortCfg := ⟨true, .access, v⟩
def trk : PortCfg := ⟨true, .trunk, 0#12⟩
def unc : PortCfg := ⟨false, .access, 0#12⟩

def sw (P : Params) (cfg : List PortCfg) (tbl : List (Mac × Nat)) : State :=
  { State.resetAt P 0 with portCfg := cfg, tbl := tbl }

/-- The state after step 2 of the full-table sequence of spec/95_test_vectors.md section 3. -/
def swSeq : State := sw { prm 2 with tableDepth := some 2 } [acc 10#12, acc 10#12] [(stA, 0), (stB, 1)]

/-- `s` with the RX transaction of one frame next in the queue. -/
def rxNext (s : State) (inp : Nat) (F : Frame) : State := s.setPending [⟨.rx, [inp, F.length], F⟩]

/-- What a step shows, the table and FAULT after it. -/
def seen (o : Host.Outcome State Fault Refusal) : Option (List Event × List (Mac × Nat) × BitVec 4) :=
  match o with
  | .next t => some (t.out, t.tbl, t.fault)
  | .fault _ => none
  | .refused _ => none

/-- A next state with what `seen` says. -/
theorem next_of_seen {o : Host.Outcome State Fault Refusal} {e : List Event} {tbl : List (Mac × Nat)} {f : BitVec 4}
    (h : seen o = some (e, tbl, f)) : ∃ t, o = .next t ∧ t.out = e := by
  cases o <;> simp_all [seen]

/-- Why a step is refused. -/
def why (o : Host.Outcome State Fault Refusal) : Option Refusal :=
  match o with
  | .next _ => none
  | .fault _ => none
  | .refused r => some r

/-- The configuration after a step. -/
def cfgOf (o : Host.Outcome State Fault Refusal) : Option (List PortCfg) :=
  match o with
  | .next t => some t.portCfg
  | .fault _ => none
  | .refused _ => none

/-- What the decoder answers, for the reset parameters. -/
def read (line : Line) (fields : List Nat) (bytes : Frame) : Except Reject Instr :=
  decode Params.initial { line := line, fields := fields, bytes := bytes }

/-- Decoding agrees with `i`, and `i` is well formed. -/
def reads (line : Line) (fields : List Nat) (bytes : Frame) (i : Instr) : Bool :=
  (match read line fields bytes with
   | .ok j => decide (j = i)
   | .error _ => false) && i.wf Params.initial

/-- The decoder's rejection. -/
def rejects (line : Line) (fields : List Nat) (bytes : Frame) (r : Reject) : Bool :=
  match read line fields bytes with
  | .ok _ => false
  | .error e => decide (e = r)

/-! ### WellFormed refuses, one ill-formed term a check (4 ports: PORT_W = 2; LEN_W = 13) -/

theorem test_wf_widths : (Params.initial.portW, Params.initial.lenW) = (2, 13) := by decide
theorem test_wf_port : portOk Params.initial 4 = false ∧ portOk Params.initial 3 = true := by decide
theorem test_wf_len : lenOk Params.initial 8192 = false ∧ lenOk Params.initial 8191 = true := by decide
theorem test_wf_short : (Instr.short 0 (List.replicate 14 0#8)).wf Params.initial = false ∧
    (Instr.short 4 []).wf Params.initial = false := by decide
theorem test_wf_untagged : (Instr.untagged 0 stB stA 0x8100#16 []).wf Params.initial = false ∧
    (Instr.untagged 4 stB stA 0x0800#16 []).wf Params.initial = false ∧
    (Instr.untagged 0 stB stA 0x0800#16 [0#8]).wf { Params.initial with maxFrameBytes := 14 } = false := by decide
theorem test_wf_shortTagged : (Instr.shortTagged 0 stB stA [0#8, 0#8, 0#8, 0#8]).wf Params.initial = false ∧
    (Instr.shortTagged 4 stB stA []).wf Params.initial = false := by decide
theorem test_wf_tagged : (Instr.tagged 4 stB stA 0#4 10#12 0x0800#16 []).wf Params.initial = false ∧
    (Instr.tagged 0 stB stA 0#4 10#12 0x0800#16 [0#8]).wf { Params.initial with maxFrameBytes := 18 } = false := by
  decide
theorem test_wf_dest : (Instr.bcast 4).wf Params.initial = false ∧ (Instr.known bcastMac 0).wf Params.initial = false ∧
    (Instr.unknown bcastMac 0).wf Params.initial = false ∧ (Instr.known stA 4).wf Params.initial = false ∧
    (Instr.unknown stA 4).wf Params.initial = false := by decide
theorem test_wf_policyRows : (Instr.aaFwd 4 10#12 []).wf Params.initial = false ∧
    (Instr.aaDrop 0 10#12 10#12 []).wf Params.initial = false ∧
    (Instr.aaDrop 4 10#12 20#12 []).wf Params.initial = false ∧ (Instr.atTag 4 10#12 []).wf Params.initial = false ∧
    (Instr.taStrip 4 10#12 []).wf Params.initial = false ∧
    (Instr.taDrop 0 10#12 (some 10#12) []).wf Params.initial = false ∧
    (Instr.taDrop 4 10#12 none []).wf Params.initial = false ∧ (Instr.ttFwd 4 []).wf Params.initial = false := by decide
theorem test_wf_operations : (Instr.decode [] 8192).wf Params.initial = false ∧
    (Instr.learn stA 4).wf Params.initial = false ∧ (Instr.candidates stA 4).wf Params.initial = false ∧
    (Instr.policy .access 10#12 none [] 8192 0).wf Params.initial = false ∧
    (Instr.policy .access 10#12 none [] 0 4).wf Params.initial = false ∧
    (Instr.process 4 [] 0).wf Params.initial = false ∧ (Instr.process 0 [] 8192).wf Params.initial = false := by decide
theorem test_wf_actions : (Instr.ok false [⟨4, [], 0⟩]).wf Params.initial = false ∧
    (Instr.ok false [⟨0, [], 1⟩]).wf Params.initial = false := by decide
theorem test_legal : ({ Params.initial with numPorts := 0 } : Params).legal = false ∧
    ({ Params.initial with maxFrameBytes := 17 } : Params).legal = false ∧
    ({ Params.initial with tableDepth := some 0 } : Params).legal = false ∧ Params.initial.legal = true := by decide

/-! ### Every constructor's decoding, from a word written out from the spec's encodings -/

/-- R88: 13 bytes (D6). -/
theorem test_decode_short : reads .rx [1, 13] (hex (mB ++ mA ++ [8])) (.short 1 (hex (mB ++ mA ++ [8]))) = true := by
  decide
/-- R81 (D2). -/
theorem test_decode_untagged : reads .rx [0, 16] (hex (mB ++ mA ++ [8, 0, 1, 2]))
    (.untagged 0 stB stA 0x0800#16 (hex [1, 2])) = true := by decide
/-- R81: one bit away from TPID is not a tag (D13). -/
theorem test_decode_untagged_near_tpid : reads .rx [0, 18] (hex (mB ++ mA ++ [0x81, 1, 0, 0x0a, 8, 0]))
    (.untagged 0 stB stA 0x8101#16 (hex [0, 0x0a, 8, 0])) = true := by decide
/-- R88 (D10): 17 bytes with TPID at offset 12. -/
theorem test_decode_shortTagged : reads .rx [3, 17] (hex (mB ++ mA ++ [0x81, 0, 0, 0x0a, 8]))
    (.shortTagged 3 stB stA (hex [0, 0x0a, 8])) = true := by decide
/-- R82, R84, R85 (D5): TCI = 0xE00A. -/
theorem test_decode_tagged : reads .rx [2, 19] (hex (mB ++ mA ++ [0x81, 0, 0xe0, 0x0a, 0x86, 0xdd, 0x55]))
    (.tagged 2 stB stA 14#4 10#12 0x86dd#16 (hex [0x55])) = true := by decide
/-- R30: a length that is not the byte count. -/
theorem test_decode_rx_length : rejects .rx [0, 15] (hex (mB ++ mA ++ [8, 0])) .rxLength = true := by decide
/-- R86: `81 00 0f ff`. -/
theorem test_decode_tag : reads .tagWord [0x81000fff] [] (.tag 4095#12) = true := by decide
/-- R86: the upper four TCI bits of the word are zero. -/
theorem test_decode_tag_priority : rejects .tagWord [0x8100e00a] [] .noRow = true := by decide
/-- R91. -/
theorem test_decode_bcast : reads .dest [0xffffffffffff, 2, 1] [] (.bcast 2) = true := by decide
theorem test_decode_known : reads .dest [0x02000000000a, 3, 1] [] (.known stA 3) = true := by decide
theorem test_decode_unknown : reads .dest [0xfffffffffffe, 0, 0] [] (.unknown 0xfffffffffffe#48 0) = true := by decide
/-- R92: row codes 0b00, 0b01, 0b10, 0b11 (src_kind, d_kind). -/
theorem test_decode_aaFwd : reads .policyRow [0b00, 1, 10, 10] (hex mB) (.aaFwd 1 10#12 (hex mB)) = true := by decide
theorem test_decode_aaDrop : reads .policyRow [0b00, 1, 10, 4095] [] (.aaDrop 1 10#12 4095#12 []) = true := by decide
theorem test_decode_atTag : reads .policyRow [0b01, 3, 10] [] (.atTag 3 10#12 []) = true := by decide
theorem test_decode_taStrip : reads .policyRow [0b10, 0, 20, 1, 20] [] (.taStrip 0 20#12 []) = true := by decide
theorem test_decode_taDrop : reads .policyRow [0b10, 0, 20, 1, 10] [] (.taDrop 0 20#12 (some 10#12) []) = true := by
  decide
theorem test_decode_taDrop_absent : reads .policyRow [0b10, 0, 0, 0, 0] [] (.taDrop 0 0#12 none []) = true := by decide
theorem test_decode_ttFwd : reads .policyRow [0b11, 2] (hex [1]) (.ttFwd 2 (hex [1])) = true := by decide
/-- R105, R110 to R113: operations, by the line that carries them. -/
theorem test_decode_decode : reads .decode [2] (hex [1, 2]) (.decode (hex [1, 2]) 2) = true := by decide
theorem test_decode_encodeTag : reads .encodeTag [4106] [] (.encodeTag 4106) = true := by decide
theorem test_decode_insertTag : reads .insertTag [10] (hex [1]) (.insertTag (hex [1]) 10) = true := by decide
theorem test_decode_stripTag : reads .stripTag [] (hex [1]) (.stripTag (hex [1])) = true := by decide
theorem test_decode_learn : reads .learn [0x02000000000a, 3] [] (.learn stA 3) = true := by decide
theorem test_decode_lookup : reads .lookup [0x02000000000b] [] (.lookup stB) = true := by decide
theorem test_decode_candidates : reads .candidates [0x02000000000b, 1] [] (.candidates stB 1) = true := by decide
/-- R93: kind 1 is Trunk; R22: TAGGED = 0 is an absent VLAN id. -/
theorem test_decode_policy : reads .policy [1, 7, 0, 0, 1, 2] (hex [9])
    (.policy .trunk 7#12 none (hex [9]) 1 2) = true := by decide
theorem test_decode_process : reads .process [3, 1] (hex [9]) (.process 3 (hex [9]) 1) = true := by decide
/-- R94: Access VLAN 10 = 0x200A, Trunk with vlan 0 = 0x3000. -/
theorem test_decode_cfgWrite : reads .cfgWrite [1, 0x200A] [] (.cfgWrite 1 true .access 10#12) = true := by decide
theorem test_decode_cfgWrite_trunk : reads .cfgWrite [1, 0x3000] [] (.cfgWrite 1 true .trunk 0#12) = true := by decide
theorem test_decode_cfgRead : reads .cfgRead [2] [] (.cfgRead 2) = true := by decide
theorem test_decode_faultRead : reads .faultRead [] [] .faultRead = true := by decide
theorem test_decode_reset : reads .reset [] [] .reset = true := by decide
/-- R200: codes 00, 01, 10, 11; tbl_full never comes with MALFORMED. -/
theorem test_decode_ok : reads .result [0b00, 1, 3, 2, 0, 1] (hex [7, 8, 9])
    (.ok true [⟨3, hex [7, 8], 2⟩, ⟨0, hex [9], 1⟩]) = true := by decide
theorem test_decode_malformed : reads .result [0b01, 0] [] .malformed = true := by decide
theorem test_decode_malformed_full : rejects .result [0b01, 1] [] .noRow = true := by decide
theorem test_decode_unknownIngress : reads .result [0b10, 0] [] (.unknownIngress false) = true := by decide
theorem test_decode_unknownEgress : reads .result [0b11, 1] [] (.unknownEgress true) = true := by decide
theorem test_decode_tblFull : reads .tblFull [1] [] .tblFull = true := by decide
theorem test_decode_portCfg : reads .portCfg [0, 0x2FFF] [] (.portCfg 0 0x2FFF#14) = true := by decide

/-- The host's numbering of table words: 32 bits of TAG, 48 of BCAST, 112 of an UNTAGGED header. -/
theorem test_tableWords : decodeTableWord 32 0x81000014 = some (.tag 20#12) ∧
    decodeTableWord 48 0xffffffffffff = some (.bcast 0) ∧
    decodeTableWord 112 0x00080a00000000020b0000000002 = some (.untagged 0 stB stA 0x0800#16 []) := by decide

/-- The word placed where step takes its next transaction runs as the first step after reset. -/
theorem test_step_first_word : seen (step (State.reset.withFetchWord 32 0x81000014)) =
    some ([.bytes (hex [0x81, 0, 0, 0x14])], [], 0#4) := by decide

/-- A RESULT row's word is followed by the frame it answers: 0x01 is MALFORMED, 0x02 UNKNOWN_INGRESS (nothing is
configured at reset; R207: the ingress check comes before the egress check). -/
theorem test_step_first_result : seen (step (State.reset.withFetchWord 16 0x01)) =
      some ([.frame ⟨.malformed, false⟩ []], [], 0b0001#4) ∧
    seen (step (State.reset.withFetchWord 16 0x02)) =
      some ([.frame ⟨.unknownIngress, false⟩ []], [(0#48, 0)], 0b0100#4) := by decide

/-! ### One step of each operation -/

/-- X5: MALFORMED, nothing learned. -/
theorem test_short : seen (exec (.short 0 (hex (mA ++ mB ++ [8]))) (sw (prm 1) [acc 10#12] [])) =
    some ([.frame ⟨.malformed, false⟩ []], [], 0b0001#4) := by decide
/-- E4: Access to Access, known. -/
theorem test_untagged : seen (exec (.untagged 0 stB stA 0x0800#16 (hex [1, 2]))
      (sw (prm 2) [acc 10#12, acc 10#12] [(stB, 1)])) =
    some ([.frame ⟨.ok, false⟩ [⟨1, hex (mB ++ mA ++ [8, 0, 1, 2]), 16⟩]], [(stA, 0), (stB, 1)], 0#4) := by decide
/-- P3 step 2: TPID at 12 but shorter than 18. -/
theorem test_shortTagged : seen (exec (.shortTagged 2 stB stA (hex [0, 0x0a]))
      (sw (prm 3) [acc 10#12, unc, trk] [])) = some ([.frame ⟨.malformed, false⟩ []], [], 0b0001#4) := by decide
/-- M6: VID 10 matches, bits 15..12 ignored. -/
theorem test_tagged : seen (exec (.tagged 0 bcastMac stA 14#4 10#12 0x86dd#16 (hex [0x55]))
      (sw (prm 2) [trk, acc 10#12] [])) =
    some ([.frame ⟨.ok, false⟩ [⟨1, hex (mBc ++ mA ++ [0x86, 0xdd, 0x55]), 15⟩]], [(stA, 0)], 0#4) := by decide
/-- M7: the tag preserved bit-exactly. -/
theorem test_tagged_trunk : seen (exec (.tagged 0 bcastMac stA 14#4 10#12 0x86dd#16 (hex [0x55]))
      (sw (prm 2) [trk, trk] [])) =
    some ([.frame ⟨.ok, false⟩ [⟨1, hex (mBc ++ mA ++ [0x81, 0, 0xe0, 0x0a, 0x86, 0xdd, 0x55]), 19⟩]],
      [(stA, 0)], 0#4) := by decide
/-- R86: the tag of VLAN 256. -/
theorem test_tag : seen (exec (.tag 256#12) (sw (prm 2) [] [])) =
    some ([.bytes (hex [0x81, 0, 1, 0])], [], 0#4) := by decide
/-- R91, E3: every port but the ingress port. -/
theorem test_bcast : seen (exec (.bcast 1) (sw (prm 4) [] [])) = some ([.ports [0, 2, 3]], [], 0#4) := by decide
/-- R151, M3: the same port under DROP. -/
theorem test_known_drop : seen (exec (.known stB 0) (sw { prm 2 with samePortHit := .drop } [] [(stB, 0)])) =
    some ([.ports []], [(stB, 0)], 0#4) := by decide
/-- R151, M3: the same port under REFLECT. -/
theorem test_known_reflect : seen (exec (.known stB 0) (sw (prm 2) [] [(stB, 0)])) =
    some ([.ports [0]], [(stB, 0)], 0#4) := by decide
/-- R91: flood. -/
theorem test_unknown : seen (exec (.unknown stC 0) (sw (prm 3) [] [(stB, 0)])) =
    some ([.ports [1, 2]], [(stB, 0)], 0#4) := by decide
/-- E8: the policy rows. -/
theorem test_aaFwd : seen (exec (.aaFwd 1 10#12 (hex [7])) (sw (prm 2) [] [])) =
    some ([.policy (some ⟨1, hex [7], 1⟩)], [], 0#4) := by decide
theorem test_aaDrop : seen (exec (.aaDrop 1 20#12 10#12 (hex [7])) (sw (prm 2) [] [])) =
    some ([.policy none], [], 0#4) := by decide
theorem test_atTag : seen (exec (.atTag 1 10#12 (hex (mB ++ mA ++ [8, 0]))) (sw (prm 2) [] [])) =
    some ([.policy (some ⟨1, hex (mB ++ mA ++ [0x81, 0, 0, 0x0a, 8, 0]), 18⟩)], [], 0#4) := by decide
theorem test_taStrip : seen (exec (.taStrip 1 20#12 (hex (mB ++ mA ++ [0x81, 0, 0, 0x14, 8, 0]))) (sw (prm 2) [] [])) =
    some ([.policy (some ⟨1, hex (mB ++ mA ++ [8, 0]), 14⟩)], [], 0#4) := by decide
theorem test_taDrop : seen (exec (.taDrop 1 10#12 none (hex [7])) (sw (prm 2) [] [])) =
    some ([.policy none], [], 0#4) := by decide
theorem test_ttFwd : seen (exec (.ttFwd 1 (hex [7])) (sw (prm 2) [] [])) =
    some ([.policy (some ⟨1, hex [7], 1⟩)], [], 0#4) := by decide
/-- D11: the inner tag is payload. -/
theorem test_decode : seen (exec (.decode (hex (mB ++ mA ++ [0x81, 0, 0, 0x1e, 0x81, 0, 0, 0x0a, 8, 0, 0x99])) 23)
      (sw (prm 2) [] [])) = some ([.decoded (some ⟨stB, stA, 0x8100#16, some 30#12⟩)], [], 0#4) := by decide
/-- D9: SHORT_TAGGED. -/
theorem test_decode_short_tagged : seen (exec (.decode (hex (mB ++ mA ++ [0x81, 0])) 14) (sw (prm 2) [] [])) =
    some ([.decoded none], [], 0#4) := by decide
/-- Section 2.2: masked to 12 bits. -/
theorem test_encodeTag : seen (exec (.encodeTag 4106) (sw (prm 2) [] [])) =
    some ([.bytes (hex [0x81, 0, 0, 0x0a])], [], 0#4) := by decide
/-- I3: double tag, the new one outermost. -/
theorem test_insertTag : seen (exec (.insertTag (hex (mBc ++ mA ++ [0x81, 0, 0, 0x1e, 8, 0, 1])) 10)
      (sw (prm 2) [] [])) =
    some ([.bytes (hex (mBc ++ mA ++ [0x81, 0, 0, 0x0a, 0x81, 0, 0, 0x1e, 8, 0, 1]))], [], 0#4) := by decide
/-- I4. -/
theorem test_insertTag_short : why (exec (.insertTag (List.replicate 11 0#8) 10) (sw (prm 2) [] [])) =
    some .insertShort := by decide
/-- S2. -/
theorem test_stripTag : seen (exec (.stripTag (hex (mB ++ mA ++ [0x81, 0, 0xe0, 0x0a, 0x86, 0xdd, 0x55])))
      (sw (prm 2) [] [])) = some ([.bytes (hex (mB ++ mA ++ [0x86, 0xdd, 0x55]))], [], 0#4) := by decide
/-- S5. -/
theorem test_stripTag_short : why (exec (.stripTag (hex (mB ++ mA ++ [0x81, 0, 0, 0x0a, 8]))) (sw (prm 2) [] [])) =
    some .stripUntagged := by decide
/-- T7: a new address and a full table. -/
theorem test_learn_full : seen (exec (.learn stC 0)
      (sw { prm 2 with tableDepth := some 2 } [] [(stA, 0), (stB, 1)])) =
    some ([.learned true], [(stA, 0), (stB, 1)], 0b0010#4) := by decide
/-- T8: update in place succeeds when full. -/
theorem test_learn_move : seen (exec (.learn stA 1)
      (sw { prm 2 with tableDepth := some 2 } [] [(stA, 0), (stB, 1)])) =
    some ([.learned false], [(stA, 1), (stB, 1)], 0#4) := by decide
/-- T4 and T5. -/
theorem test_lookup : seen (exec (.lookup stA) (sw (prm 2) [] [(stA, 0)])) =
    some ([.looked (some 0)], [(stA, 0)], 0#4) := by decide
theorem test_lookup_none : seen (exec (.lookup stB) (sw (prm 2) [] [(stA, 0)])) =
    some ([.looked none], [(stA, 0)], 0#4) := by decide
/-- T6, M11: a broadcast destination floods though TBL holds it. -/
theorem test_candidates : seen (exec (.candidates bcastMac 1) (sw (prm 3) [] [(bcastMac, 0)])) =
    some ([.ports [0, 2]], [(bcastMac, 0)], 0#4) := by decide
/-- R156: a matching tag. -/
theorem test_policy : seen (exec (.policy .trunk 0#12 (some 20#12) (hex (mB ++ mA ++ [0x81, 0, 0, 0x14, 8, 0])) 18 1)
      (sw (prm 2) [unc, acc 20#12] [])) =
    some ([.policy (some ⟨1, hex (mB ++ mA ++ [8, 0]), 14⟩)], [], 0#4) := by decide
/-- M1: a tagged frame from an Access port to a Trunk port is doubly tagged. -/
theorem test_process : seen (exec (.process 0 (hex (mBc ++ mA ++ [0x81, 0, 0, 0x1e, 8, 0, 1])) 19)
      (sw (prm 3) [acc 10#12, acc 10#12, trk] [])) =
    some ([.frame ⟨.ok, false⟩ [⟨1, hex (mBc ++ mA ++ [0x81, 0, 0, 0x1e, 8, 0, 1]), 19⟩,
      ⟨2, hex (mBc ++ mA ++ [0x81, 0, 0, 0x0a, 0x81, 0, 0, 0x1e, 8, 0, 1]), 23⟩]], [(stA, 0)], 0#4) := by decide
/-- X8: one candidate unconfigured. -/
theorem test_process_egress : seen (exec (.process 0 (hex (mBc ++ mA ++ [8, 0])) 14)
      (sw (prm 2) [acc 10#12, unc] [])) =
    some ([.frame ⟨.unknownEgress, false⟩ []], [(stA, 0)], 0b1000#4) := by decide
/-- X6, P3 step 11: the ingress port is absent; the address was learned first. -/
theorem test_process_ingress : seen (exec (.process 3 (hex (mA ++ mB ++ [8, 0])) 14)
      (sw (prm 3) [acc 10#12, unc, trk] [])) =
    some ([.frame ⟨.unknownIngress, false⟩ []], [(stB, 3)], 0b0100#4) := by decide
/-- M4: destination = own source. -/
theorem test_process_own_source : seen (exec (.process 0 (hex (mA ++ mA ++ [0x81, 0, 0, 0x0a, 8, 0, 1])) 19)
      (sw (prm 2) [trk, acc 10#12] [])) =
    some ([.frame ⟨.ok, false⟩ [⟨0, hex (mA ++ mA ++ [0x81, 0, 0, 0x0a, 8, 0, 1]), 19⟩]], [(stA, 0)], 0#4) := by decide
/-- X4. -/
theorem test_cfgWrite : cfgOf (exec (.cfgWrite 1 true .trunk 0#12) (sw (prm 2) [acc 10#12, unc] [])) =
    some [acc 10#12, trk] := by decide
/-- X3: 0x200A. -/
theorem test_cfgRead : seen (exec (.cfgRead 0) (sw (prm 1) [acc 10#12] [])) =
    some ([.cfgRead 0x200A#14], [], 0#4) := by decide
/-- U3: register number NUM_PORTS is FAULT. -/
theorem test_cfgRead_fault : why (exec (.cfgRead 1) (sw (prm 1) [acc 10#12] [])) = some .noSuchRegister := by decide
theorem test_faultRead : seen (exec .faultRead { sw (prm 1) [] [] with fault := 0b1101#4 }) =
    some ([.faultRead 0b1101#4], [], 0b1101#4) := by decide
/-- X9. -/
theorem test_reset : seen (exec .reset { sw (prm 1) [acc 10#12] [(stA, 0)] with fault := 0b1101#4 }) =
    some ([], [], 0#4) := by decide
/-- Step 3 of the full-table sequence, as the OK row that answers the frame next in the queue. -/
theorem test_ok : seen (exec (.ok true [⟨1, hex (mB ++ mC ++ [8, 0]), 14⟩]) (rxNext swSeq 0 (hex (mB ++ mC ++ [8, 0])))) =
    some ([.frame ⟨.ok, true⟩ [⟨1, hex (mB ++ mC ++ [8, 0]), 14⟩]], [(stA, 0), (stB, 1)], 0b0010#4) := by decide
/-- X5. -/
theorem test_malformed : seen (exec .malformed (rxNext (sw (prm 1) [acc 10#12] []) 0 (hex (mA ++ mB ++ [8])))) =
    some ([.frame ⟨.malformed, false⟩ []], [], 0b0001#4) := by decide
/-- X6. -/
theorem test_unknownIngress : seen (exec (.unknownIngress false)
      (rxNext (sw (prm 2) [unc, unc] []) 0 (hex (mB ++ mA ++ [8, 0])))) =
    some ([.frame ⟨.unknownIngress, false⟩ []], [(stA, 0)], 0b0100#4) := by decide
/-- X8. -/
theorem test_unknownEgress : seen (exec (.unknownEgress false)
      (rxNext (sw (prm 2) [acc 10#12, unc] []) 0 (hex (mBc ++ mA ++ [8, 0])))) =
    some ([.frame ⟨.unknownEgress, false⟩ []], [(stA, 0)], 0b1000#4) := by decide
/-- Step 3 of the full-table sequence again, as the TBL_FULL row. -/
theorem test_tblFull : seen (exec .tblFull (rxNext swSeq 0 (hex (mB ++ mC ++ [8, 0])))) =
    some ([.frame ⟨.ok, true⟩ [⟨1, hex (mB ++ mC ++ [8, 0]), 14⟩]], [(stA, 0), (stB, 1)], 0b0010#4) := by decide
/-- Step 4 of that sequence has room to learn (an update in place): no TBL_FULL. -/
theorem test_tblFull_refused : why (exec .tblFull (rxNext swSeq 1 (hex (mC ++ mB ++ [8, 0])))) =
    some .rowNotSelected := by decide
/-- R94: 0x2014 is Access VLAN 20. -/
theorem test_portCfg : cfgOf (exec (.portCfg 0 0x2014#14) (sw (prm 2) [unc, trk] [])) = some [acc 20#12, trk] := by
  decide

/-! ### Witnesses: a concrete state and operands that meet the hypotheses of each statement, clause by clause -/

/-- A table with room, and one that is full. -/
def swRoom : State := sw { prm 3 with tableDepth := some 3 } [acc 10#12, acc 20#12, trk] [(stA, 0), (stB, 1)]
def swFull : State := sw { prm 3 with tableDepth := some 2 } [acc 10#12, acc 20#12, trk] [(stA, 0), (stB, 1)]
/-- One port configured, one not. -/
def swHalf : State := sw (prm 2) [acc 10#12, unc] []
def swTrunks : State := sw (prm 4) [trk, trk, trk, trk] []

/-- 14 bytes untagged; 18 bytes tagged, with priority bits; 17 bytes with TPID. -/
def f14 : Frame := hex (mB ++ mA ++ [8, 0])
def f18 : Frame := hex (mB ++ mA ++ [0x81, 0, 0, 0x0a, 8, 0])
def f18p : Frame := hex (mB ++ mA ++ [0x81, 0, 0xe0, 0x0a, 8, 0])
def f17 : Frame := hex (mB ++ mA ++ [0x81, 0, 0, 0x0a, 8])
def f14bc : Frame := hex (mBc ++ mA ++ [8, 0])
def f14own : Frame := hex (mA ++ mA ++ [8, 0])

/-- One operation of each constructor, with boundary values of its operands (4 ports, MAX_FRAME_BYTES 4096). -/
def formsFrame : List Instr :=
  [.short 3 (List.replicate 13 0xff#8), .untagged 0 bcastMac stA 0x80ff#16 [], .shortTagged 3 stB stA (hex [1, 2, 3]),
   .tagged 3 stB stA 15#4 4095#12 0x8100#16 (hex [1])]
def formsRow : List Instr :=
  [.tag 4095#12, .bcast 3, .known 0xfffffffffffe#48 3, .unknown 0#48 0, .aaFwd 3 4095#12 [], .aaDrop 0 0#12 4095#12 [],
   .atTag 3 0#12 (hex [1]), .taStrip 0 4095#12 [], .taDrop 3 0#12 none [], .taDrop 3 0#12 (some 4095#12) [], .ttFwd 0 []]
def formsOp : List Instr :=
  [.decode [] 8191, .encodeTag 70000, .insertTag [] 0, .stripTag [], .learn bcastMac 3, .lookup 0#48,
   .candidates bcastMac 0, .policy .trunk 4095#12 (some 0#12) (hex [1]) 8191 3, .process 3 [] 8191]
def formsHost : List Instr :=
  [.cfgWrite 9 true .trunk 4095#12, .cfgRead 4, .faultRead, .reset, .ok true [⟨3, hex [1, 2], 2⟩, ⟨0, [], 0⟩],
   .malformed, .unknownIngress true, .unknownEgress false, .tblFull, .portCfg 0 0x3fff#14]
def forms : List Instr := formsFrame ++ (formsRow ++ (formsOp ++ formsHost))

theorem witness_StepExecutesDecodedTransaction :
    ({ State.reset with pending := [⟨.lookup, [1], []⟩] } : State).pending = ⟨.lookup, [1], []⟩ :: [] ∧
    decode State.reset.params ⟨.lookup, [1], []⟩ = .ok (.lookup 1#48) := ⟨rfl, rfl⟩
theorem witness_StepIdlesOrRejects : State.reset.pending = [] ∧
    ({ State.reset with pending := [⟨.lookup, [], []⟩] } : State).pending = ⟨.lookup, [], []⟩ :: [] ∧
    decode State.reset.params ⟨.lookup, [], []⟩ = .error .fieldCount := ⟨rfl, rfl, rfl⟩
theorem witness_DecodeOfEncodeIsIdentity :
    Params.initial.legal = true ∧ forms.all (fun i => i.wf Params.initial) = true :=
  ⟨rfl, by decide⟩
theorem witness_DecodedOperationsAreWellFormed : decode Params.initial ⟨.rx, [3, 14], f14⟩ =
    .ok (.untagged 3 stB stA 0x0800#16 []) := rfl
theorem witness_RxFrameClassIsDecidedByBytes : 3 < 2 ^ Params.initial.portW ∧
    (List.replicate 13 0#8).length < 14 ∧ (14 ≤ f14.length ∧ halfAt f14 12 ≠ Params.initial.tpid.toNat) ∧
    (14 ≤ f17.length ∧ halfAt f17 12 = Params.initial.tpid.toNat ∧ f17.length < 18) ∧
    (18 ≤ f18.length ∧ halfAt f18 12 = Params.initial.tpid.toNat ∧ f18.length ≤ Params.initial.maxFrameBytes) := by
  decide
theorem witness_RxDecodingKeepsEveryByte : decode Params.initial ⟨.rx, [0, 18], f18p⟩ =
    .ok (.tagged 0 stB stA 14#4 10#12 0x0800#16 []) := rfl
theorem witness_DecodeReadsHeaderFields :
    isMalformed (prm 2) (List.replicate 13 0#8) ∧ isMalformed (prm 2) f17 ∧ ¬ isMalformed (prm 2) f14 ∧
    ¬ isMalformed (prm 2) f18 := by unfold isMalformed; decide
theorem witness_InsertTagMovesBytesByFour : 12 ≤ (List.replicate 12 0#8).length ∧ (List.replicate 11 0#8).length < 12 := by
  decide
theorem witness_StripTagMovesBytesByFour :
    (18 ≤ f18.length ∧ halfAt f18 12 = (swRoom).params.tpid.toNat) ∧
    ¬ (18 ≤ f17.length ∧ halfAt f17 12 = swRoom.params.tpid.toNat) ∧
    ¬ (18 ≤ (List.replicate 18 0#8).length ∧ halfAt (List.replicate 18 0#8) 12 = swRoom.params.tpid.toNat) := by decide
theorem witness_TagRoundTrip : 14 ≤ f14.length ∧
    (12 ≤ (List.replicate 12 0#8).length ∧ (List.replicate 12 0#8).length < 14) ∧
    (12 ≤ (List.replicate 13 0#8).length ∧ (List.replicate 13 0#8).length < 14) ∧
    (List.replicate 11 0#8).length < 12 := by decide
theorem witness_StripThenInsertClearsUpperTciBits :
    (18 ≤ f18.length ∧ halfAt f18 12 = swRoom.params.tpid.toNat ∧ halfAt f18 14 < 4096) ∧
    (18 ≤ f18p.length ∧ halfAt f18p 12 = swRoom.params.tpid.toNat ∧ ¬ halfAt f18p 14 < 4096) := by decide
/-- A new address with room, a known one with the table full, a new one with the table full. -/
theorem witness_LearnWritesOneEntryOrReportsFull : Tbl.wf swRoom.tbl ∧ canLearn swRoom stC ∧ Tbl.wf swFull.tbl ∧
    canLearn swFull stA ∧ ¬ canLearn swFull stC := by
  have h1 : Tbl.wf swRoom.tbl := by decide
  have h2 : Tbl.wf swFull.tbl := by decide
  rw [canLearn_iff h1, canLearn_iff h2, canLearn_iff h2]
  decide
theorem witness_LookupReturnsStoredPort : Tbl.wf swRoom.tbl := by decide
theorem witness_RepeatedLearnLeavesTable : Tbl.wf swFull.tbl ∧ canLearn swFull stA := by
  have h : Tbl.wf swFull.tbl := by decide
  exact ⟨h, (canLearn_iff h stA).2 (by decide)⟩
theorem witness_StationMoveOverwritesPort : Tbl.wf swFull.tbl ∧ (stA, 0) ∈ swFull.tbl := by decide
theorem witness_CandidatesListsCandidateSet : Tbl.wf swRoom.tbl := by decide
theorem witness_DestinationRowsAgreeWithCandidates : Tbl.wf swRoom.tbl ∧ (stA ≠ bcastMac ∧ (stA, 0) ∈ swRoom.tbl) ∧
    (stC ≠ bcastMac ∧ ∀ h, (stC, h) ∉ swRoom.tbl) :=
  ⟨by decide, by decide, by decide, by simp [swRoom, sw, stA, stB, stC]⟩
theorem witness_AccessToAccessForwardsSameVlanOnly : (20#12 : VlanId) ≠ 10#12 ∧ swRoom.holds 0 (.access 10#12) :=
  ⟨by decide, rfl⟩
theorem witness_AccessToTrunkInsertsTag : 12 ≤ (List.replicate 12 0#8).length ∧ swRoom.holds 2 .trunk :=
  ⟨by decide, rfl⟩
theorem witness_TrunkToAccessStripsMatchingTag : 18 ≤ f18.length ∧ halfAt f18 12 = swRoom.params.tpid.toNat ∧
    swRoom.holds 0 (.access 10#12) ∧ (none : Option VlanId) ≠ some 10#12 ∧ some (20#12 : VlanId) ≠ some 10#12 :=
  ⟨by decide, by decide, rfl, by decide, by decide⟩
theorem witness_TrunkToTrunkForwardsUnchanged : swRoom.holds 2 .trunk := rfl
theorem witness_UnselectedRowsAreRefused : 14 ≤ f14.length ∧ 4 ≤ (hex [1, 2, 3, 4]).length ∧ (∀ h, (stC, h) ∉ swRoom.tbl) ∧ (∃ h, (stA, h) ∈ swRoom.tbl) ∧
    validCfg swHalf 1 = none ∧ validCfg swHalf 2 = none :=
  ⟨by decide, by decide, by simp [swRoom, sw, stA, stB, stC], ⟨0, by decide⟩, rfl, rfl⟩
/-- No RX transaction next: an empty queue, a host transaction. One that ends OK (E7 step 3's shape), and one that
is malformed, so that each RESULT row meets one it does not answer. -/
theorem witness_UnselectedRowsAreRefused_results :
    (∀ p G rest, ¬ swHalf.receivesNext p G rest) ∧
    (∀ p G rest, ¬ (swHalf.setPending [⟨.faultRead, [], []⟩]).receivesNext p G rest) ∧
    (rxNext swRoom 0 f14).receivesNext 0 f14 [] ∧
    (∃ t, exec (.process 0 f14 14) (rxNext swRoom 0 f14 |>.setPending []) = .next t ∧
      t.out = (rxNext swRoom 0 f14).out ++ [.frame ⟨.ok, false⟩ []]) ∧
    (rxNext swRoom 0 f17).receivesNext 0 f17 [] ∧
    ∃ t, exec (.process 0 f17 17) (rxNext swRoom 0 f17 |>.setPending []) = .next t ∧
      t.out = (rxNext swRoom 0 f17).out ++ [.frame ⟨.malformed, false⟩ []] :=
  ⟨fun _ _ _ h => (nomatch h.1), fun _ _ _ h => by simp [State.receivesNext] at h, ⟨rfl, by decide, by decide⟩,
    next_of_seen (tbl := [(stA, 0), (stB, 1)]) (f := 0#4) (by decide), ⟨rfl, by decide, by decide⟩,
    next_of_seen (tbl := [(stA, 0), (stB, 1)]) (f := 1#4) (by decide)⟩
theorem witness_FrameClassOperationsAreProcess :
    decode (prm 2) ⟨.rx, [1, 13], List.replicate 13 0#8⟩ = .ok (.short 1 (List.replicate 13 0#8)) ∧
    decode (prm 2) ⟨.rx, [0, 14], f14⟩ = .ok (.untagged 0 stB stA 0x0800#16 []) ∧
    decode (prm 2) ⟨.rx, [0, 17], f17⟩ = .ok (.shortTagged 0 stB stA (hex [0, 0x0a, 8])) ∧
    decode (prm 2) ⟨.rx, [0, 18], f18⟩ = .ok (.tagged 0 stB stA 0#4 10#12 0x0800#16 []) := ⟨rfl, rfl, rfl, rfl⟩
theorem witness_EveryRxTransactionIsAnswered :
    (sw { prm 2 with maxFrameBytes := 18 } [] []).params.maxFrameBytes = 18 ∧ f18.length ≤ 18 ∧
    ((List.replicate 13 0#8).length < 14 ∧ (List.replicate 13 0#8).length ≤ 18) ∧
    ((0x0800#16 : Half) ≠ (prm 2).tpid ∧ 14 + (hex [1, 2, 3, 4]).length ≤ 18) ∧
    ((hex [1, 2, 3]).length < 4 ∧ 14 + (hex [1, 2, 3]).length ≤ 18) ∧ 18 + (hex []).length ≤ 18 := by decide
theorem witness_MalformedFrameIsDropped : f17.length ≤ swHalf.params.maxFrameBytes ∧ isMalformed swHalf.params f17 := by
  unfold isMalformed; decide

/-- The headers of the frames above. -/
theorem header_f14 : hasHeader (prm 4) f14 ⟨stB, stA, 0x0800#16, none⟩ := (hasHeader_iff _ _ _).2 (by decide)
theorem header_f18 : hasHeader (prm 4) f18 ⟨stB, stA, 0x0800#16, some 10#12⟩ := (hasHeader_iff _ _ _).2 (by decide)
theorem header_f14bc (P : Params) (h : P.tpid = 0x8100#16) : hasHeader P f14bc ⟨bcastMac, stA, 0x0800#16, none⟩ := by
  refine (hasHeader_iff _ _ _).2 ?_
  unfold decodeHeader
  rw [h]
  decide
theorem header_f14own (P : Params) (h : P.tpid = 0x8100#16) : hasHeader P f14own ⟨stA, stA, 0x0800#16, none⟩ := by
  refine (hasHeader_iff _ _ _).2 ?_
  unfold decodeHeader
  rw [h]
  decide

theorem witness_UnknownIngressIsReported : Tbl.wf swHalf.tbl ∧ f14.length ≤ swHalf.params.maxFrameBytes ∧
    hasHeader swHalf.params f14 ⟨stB, stA, 0x0800#16, none⟩ ∧ validCfg swHalf 1 = none :=
  ⟨by decide, by decide, (hasHeader_iff _ _ _).2 (by decide), rfl⟩
theorem witness_UnknownEgressIsAllOrNothing : Tbl.wf swHalf.tbl ∧ f14bc.length ≤ swHalf.params.maxFrameBytes ∧
    hasHeader swHalf.params f14bc ⟨bcastMac, stA, 0x0800#16, none⟩ ∧ swHalf.holds 0 (.access 10#12) ∧
    learnEffect swHalf stA 0 [(stA, 0)] false ∧ isCandidate swHalf.params [(stA, 0)] bcastMac 0 1 ∧
    validCfg swHalf 1 = none :=
  ⟨by decide, by decide, header_f14bc _ rfl, rfl,
    learnEffect_write 0 (by decide) ((canLearn_iff (by decide) _).2 (by decide)),
    .inl ⟨.inl rfl, by decide, by decide⟩, rfl⟩
/-- A broadcast on three configured ports; the source address new and the table full. -/
theorem witness_WellFormedFrameIsForwardedByPolicy :
    let s := sw { prm 3 with tableDepth := some 1 } [acc 10#12, acc 20#12, trk] [(stB, 1)]
    Tbl.wf s.tbl ∧ f14bc.length ≤ s.params.maxFrameBytes ∧
    hasHeader s.params f14bc ⟨bcastMac, stA, 0x0800#16, none⟩ ∧ s.holds 0 (.access 10#12) ∧
    learnEffect s stA 0 [(stB, 1)] true ∧
    ∀ d, isCandidate s.params [(stB, 1)] bcastMac 0 d → (validCfg s d).isSome = true := by
  refine ⟨by decide, by decide, header_f14bc _ rfl, rfl, ?_, ?_⟩
  · have hn : ¬ canLearn (sw { prm 3 with tableDepth := some 1 } [acc 10#12, acc 20#12, trk] [(stB, 1)]) stA := by
      rw [canLearn_iff (by decide)]; decide
    exact ⟨fun h => absurd h hn, fun _ => ⟨rfl, rfl⟩⟩
  · rintro d (⟨-, hd, -⟩ | ⟨hb, -⟩)
    · have hd : d < 3 := hd
      obtain rfl | rfl | rfl : d = 0 ∨ d = 1 ∨ d = 2 := by omega
      all_goals rfl
    · exact absurd rfl hb
/-- M1: two actions, one of them longer than the frame. -/
theorem witness_EmittedActionsAreLegal : ∃ t,
    exec (.process 0 f14bc 14) (sw (prm 3) [acc 10#12, acc 10#12, trk] []) = .next t ∧
    t.out = (sw (prm 3) [acc 10#12, acc 10#12, trk] []).out ++ [.frame ⟨.ok, false⟩ [⟨1, f14bc, 14⟩,
      ⟨2, hex (mBc ++ mA ++ [0x81, 0, 0, 0x0a, 8, 0]), 18⟩]] :=
  next_of_seen (tbl := [(stA, 0)]) (f := 0#4) (by decide)
/-- The same under DROP, toward one port. -/
theorem witness_EmittedActionsAreLegal_drop : ∃ t,
    exec (.process 0 f14bc 14) (sw { prm 2 with samePortHit := .drop } [acc 10#12, acc 10#12] []) = .next t ∧
    t.out = (sw { prm 2 with samePortHit := .drop } [acc 10#12, acc 10#12] []).out ++
      [.frame ⟨.ok, false⟩ [⟨1, f14bc, 14⟩]] :=
  next_of_seen (tbl := [(stA, 0)]) (f := 0#4) (by decide)
/-- The same as the OK row. -/
theorem witness_EmittedActionsAreLegal_row : ∃ t,
    exec (.ok false [⟨1, f14bc, 14⟩]) (rxNext (sw (prm 2) [acc 10#12, acc 10#12] []) 0 f14bc) = .next t ∧
    t.out = (rxNext (sw (prm 2) [acc 10#12, acc 10#12] []) 0 f14bc).out ++ [.frame ⟨.ok, false⟩ [⟨1, f14bc, 14⟩]] :=
  next_of_seen (tbl := [(stA, 0)]) (f := 0#4) (by decide)
theorem witness_TrunkFloodReachesEveryOtherPort : Tbl.wf swTrunks.tbl ∧ f14bc.length ≤ swTrunks.params.maxFrameBytes ∧
    hasHeader swTrunks.params f14bc ⟨bcastMac, stA, 0x0800#16, none⟩ ∧ 3 < swTrunks.params.numPorts ∧
    ∀ p, p < swTrunks.params.numPorts → swTrunks.holds p .trunk := by
  refine ⟨by decide, by decide, header_f14bc _ rfl, by decide, fun p hp => ?_⟩
  have hp : p < 4 := hp
  obtain rfl | rfl | rfl | rfl : p = 0 ∨ p = 1 ∨ p = 2 ∨ p = 3 := by omega
  all_goals rfl
theorem witness_FrameToOwnSourceIsSamePortHit : Tbl.wf swFull.tbl ∧ f14own.length ≤ swFull.params.maxFrameBytes ∧
    hasHeader swFull.params f14own ⟨stA, stA, 0x0800#16, none⟩ ∧ swFull.holds 0 (.access 10#12) ∧ canLearn swFull stA ∧
    stA ≠ bcastMac ∧ swFull.params.samePortHit = .reflect ∧
    (sw { prm 2 with samePortHit := .drop } [acc 10#12, trk] []).params.samePortHit = .drop :=
  ⟨by decide, by decide, header_f14own _ rfl, rfl, (canLearn_iff (by decide) _).2 (by decide), by decide, rfl, rfl⟩
/-- E7 step 3's shape: the policy forbids the one candidate (VLAN 10 to VLAN 20). -/
theorem witness_KnownUnicastIsNeverFlooded : Tbl.wf swRoom.tbl ∧ f14.length ≤ swRoom.params.maxFrameBytes ∧
    hasHeader swRoom.params f14 ⟨stB, stA, 0x0800#16, none⟩ ∧ swRoom.holds 0 (.access 10#12) ∧
    swRoom.holds 1 (.access 20#12) ∧ (stB, 1) ∈ swRoom.tbl ∧ stB ≠ stA ∧ stB ≠ bcastMac ∧ (1 : Nat) ≠ 0 ∧
    ∀ bytes length, ¬ forwards swRoom.params (.access 10#12) (.access 20#12) none f14 bytes length :=
  ⟨by decide, by decide, (hasHeader_iff _ _ _).2 (by decide), rfl, rfl, by decide, by decide, by decide, by decide,
    fun _ _ h => absurd h.1 (by decide)⟩
/-- M2: untagged on a Trunk port. -/
theorem witness_UntaggedTrunkTrafficReachesTrunksOnly : (∃ t,
    exec (.process 0 f14bc 14) (sw (prm 3) [trk, acc 10#12, trk] []) = .next t ∧
    t.out = (sw (prm 3) [trk, acc 10#12, trk] []).out ++ [.frame ⟨.ok, false⟩ [⟨2, f14bc, 14⟩]]) ∧
    hasHeader (prm 3) f14bc ⟨bcastMac, stA, 0x0800#16, none⟩ ∧
    (sw (prm 3) [trk, acc 10#12, trk] []).holds 0 .trunk :=
  ⟨next_of_seen (tbl := [(stA, 0)]) (f := 0#4) (by decide), header_f14bc _ rfl, rfl⟩
/-- From an Access port, and from a Trunk port with the tag. -/
theorem witness_AccessPortsReceiveTheirVlanOnly : (∃ t,
    exec (.process 0 f14 14) (sw (prm 2) [acc 10#12, acc 10#12] []) = .next t ∧
    t.out = (sw (prm 2) [acc 10#12, acc 10#12] []).out ++ [.frame ⟨.ok, false⟩ [⟨1, f14, 14⟩]]) ∧
    (∃ t, exec (.process 0 f18 18) (sw (prm 2) [trk, acc 10#12] []) = .next t ∧
      t.out = (sw (prm 2) [trk, acc 10#12] []).out ++ [.frame ⟨.ok, false⟩ [⟨1, f14, 14⟩]]) ∧
    (sw (prm 2) [trk, acc 10#12] []).holds 1 (.access 10#12) :=
  ⟨next_of_seen (tbl := [(stA, 0)]) (f := 0#4) (by decide), next_of_seen (tbl := [(stA, 0)]) (f := 0#4) (by decide),
    rfl⟩
theorem witness_NeverFullTableIsUnboundedMap : Tbl.wf swRoom.tbl ∧ (∃ t,
    exec (.process 0 f14 14) swRoom = .next t ∧ t.neverFull) ∧
    hasHeader swRoom.params f14 ⟨stB, stA, 0x0800#16, none⟩ :=
  ⟨by decide, ⟨_, rfl, by unfold State.neverFull; decide⟩, (hasHeader_iff _ _ _).2 (by decide)⟩
theorem witness_ForwardingIgnoresFaultAndPastFrames :
    let u := { swRoom with fault := 0b1111#4, frame := f18, out := [.ports []] }
    u.params = swRoom.params ∧ u.tbl = swRoom.tbl ∧ u.portCfg = swRoom.portCfg ∧ u ≠ swRoom ∧
    ∃ t, exec (.process 0 f14 14) swRoom = .next t :=
  ⟨rfl, rfl, rfl, fun h => absurd (congrArg State.fault h) (by decide), _, rfl⟩
theorem witness_CfgReadReturnsWhatCfgWriteWrote : swHalf.portCfg.length = swHalf.params.numPorts ∧
    1 < swHalf.params.numPorts := by decide
theorem witness_CfgReadReturnsRegister : 1 < swHalf.params.numPorts ∧ swHalf.portCfg[1]? = some unc := by decide
theorem witness_PortCfgWordIsValidKindVlan : 0 < swHalf.params.numPorts ∧ 1 < swHalf.params.numPorts := by decide
theorem witness_ResetStateIsEmptyAndUnconfigured : 0 < Params.initial.numPorts ∧ 3 < Params.initial.numPorts := by
  decide
/-- A malformed frame on the last port; a frame on an unconfigured port; a broadcast toward one. -/
theorem witness_ErrorRowsSetTheirFaultBit :
    ((rxNext swHalf 1 f17).receivesNext 1 f17 [] ∧ isMalformed (prm 2) f17) ∧
    ((rxNext swHalf 1 f14bc).receivesNext 1 f14bc [] ∧ learnEffect (rxNext swHalf 1 f14bc) stA 1 [(stA, 1)] false ∧
      validCfg (rxNext swHalf 1 f14bc) 1 = none) ∧
    ((rxNext swHalf 0 f14bc).receivesNext 0 f14bc [] ∧ learnEffect (rxNext swHalf 0 f14bc) stA 0 [(stA, 0)] false ∧
      (rxNext swHalf 0 f14bc).holds 0 (.access 10#12) ∧ isCandidate (prm 2) [(stA, 0)] bcastMac 0 1 ∧
      validCfg (rxNext swHalf 0 f14bc) 1 = none) ∧
    Tbl.wf swHalf.tbl ∧ hasHeader (prm 2) f14bc ⟨bcastMac, stA, 0x0800#16, none⟩ :=
  ⟨⟨⟨rfl, by decide, by decide⟩, by unfold isMalformed; decide⟩,
    ⟨⟨rfl, by decide, by decide⟩, learnEffect_write 1 (by decide) ((canLearn_iff (by decide) _).2 (by decide)), rfl⟩,
    ⟨⟨rfl, by decide, by decide⟩, learnEffect_write 0 (by decide) ((canLearn_iff (by decide) _).2 (by decide)), rfl,
      .inl ⟨.inl rfl, by decide, by decide⟩, rfl⟩, by decide, header_f14bc _ rfl⟩
/-- A broadcast between two configured ports whose source address is new to a full table: both rows' premises. -/
theorem witness_OkAndTblFullRowsReport :
    let s := rxNext (sw { prm 2 with tableDepth := some 1 } [acc 10#12, trk] [(stB, 1)]) 0 f14bc
    s.receivesNext 0 f14bc [] ∧ Tbl.wf s.tbl ∧ hasHeader s.params f14bc ⟨bcastMac, stA, 0x0800#16, none⟩ ∧
    learnEffect s stA 0 [(stB, 1)] true ∧ s.holds 0 (.access 10#12) ∧
    (∀ d, isCandidate s.params [(stB, 1)] bcastMac 0 d → (validCfg s d).isSome = true) ∧ ¬ canLearn s stA := by
  have hn : ¬ canLearn (rxNext (sw { prm 2 with tableDepth := some 1 } [acc 10#12, trk] [(stB, 1)]) 0 f14bc) stA := by
    rw [canLearn_iff (by decide)]; decide
  refine ⟨⟨rfl, by decide, by decide⟩, by decide, header_f14bc _ rfl, ⟨fun h => absurd h hn, fun _ => ⟨rfl, rfl⟩⟩, rfl,
    ?_, hn⟩
  rintro d (⟨-, hd, -⟩ | ⟨hb, -⟩)
  · have hd : d < 2 := hd
    obtain rfl | rfl : d = 0 ∨ d = 1 := by omega
    all_goals rfl
  · exact absurd rfl hb
theorem witness_PreconditionViolationsAreRefused : (13 ≠ f14.length) ∧
    (sw { prm 2 with maxFrameBytes := 18 } [] []).params.maxFrameBytes < (List.replicate 19 0#8).length ∧
    (List.replicate 11 0#8).length < 12 ∧ ¬ (18 ≤ f17.length ∧ halfAt f17 12 = swHalf.params.tpid.toNat) ∧
    swHalf.params.numPorts ≤ 2 := by decide
theorem witness_PreconditionViolationsAreRefused_policy : swRoom.holds 2 .trunk ∧ swRoom.holds 0 (.access 10#12) :=
  ⟨rfl, rfl⟩
/-- MAX_FRAME_BYTES = 18; a SHORT frame is longer than it only for an illegal parameter record (R6). -/
theorem witness_OverlongFrameClassesAreRefused :
    ((List.replicate 13 0#8).length < 14 ∧ 12 < (List.replicate 13 0#8).length) ∧
    ((0x0800#16 : Half) ≠ (prm 2).tpid ∧ 18 < 14 + (List.replicate 5 0#8).length) ∧
    ((List.replicate 3 0#8).length < 4 ∧ 16 < 14 + (List.replicate 3 0#8).length) ∧
    18 < 18 + (List.replicate 1 0#8).length := by decide

theorem inv_swHalf : swHalf.Inv :=
  ⟨by decide, by decide, fun _ h => (nomatch h), by decide, by decide, Nat.mod_lt _ (Nat.two_pow_pos _),
    Nat.mod_lt _ (Nat.two_pow_pos _), Nat.mod_lt _ (Nat.two_pow_pos _), by decide⟩
theorem witness_StepKeepsInvariant : (swHalf.setPending [⟨.process, [0, 14], f14⟩]).Inv ∧
    ∃ t, step (swHalf.setPending [⟨.process, [0, 14], f14⟩]) = .next t :=
  ⟨⟨inv_swHalf.legal, inv_swHalf.tblWf, inv_swHalf.tblDepth, inv_swHalf.tblPorts, inv_swHalf.cfgLength,
    inv_swHalf.inpFits, inv_swHalf.lenFits, inv_swHalf.dFits, inv_swHalf.frameFits⟩, _, rfl⟩
theorem witness_ResetMeetsInvariant : Params.initial.legal = true := by decide
/-- The error a frame reports on a state whose other FAULT bits are set. -/
theorem witness_FaultBitsAreSticky : (Instr.process 1 f14 14) ≠ .reset ∧
    ∃ t, exec (.process 1 f14 14) { swHalf with fault := 0b0011#4 } = .next t ∧ t.fault = 0b0111#4 :=
  ⟨by decide, _, rfl, by decide⟩
theorem witness_OtherOperationsLeaveFault :
    (Instr.cfgWrite 1 true .trunk 0#12).line ∉ [Line.rx, .process, .learn, .result, .tblFull, .reset] ∧
    ∃ t, exec (.cfgWrite 1 true .trunk 0#12) swHalf = .next t := ⟨by decide, _, rfl⟩
theorem witness_TableCountNeverDecreases : Tbl.wf swRoom.tbl ∧ (Instr.learn stC 2) ≠ .reset ∧
    ∃ t, exec (.learn stC 2) swRoom = .next t ∧ t.tbl.length = 3 := ⟨by decide, by decide, _, rfl, by decide⟩
theorem witness_OtherOperationsLeaveTable :
    (Instr.candidates stA 1).line ∉ [Line.rx, .process, .learn, .result, .tblFull, .reset] ∧
    ∃ t, exec (.candidates stA 1) swRoom = .next t := ⟨by decide, _, rfl⟩
theorem witness_DatapathLeavesConfiguration :
    (Instr.process 0 f14 14).line ∉ [Line.cfgWrite, .portCfg, .reset] ∧
    ∃ t, exec (.process 0 f14 14) swHalf = .next t := ⟨by decide, _, rfl⟩
theorem witness_ParametersFixedAndOutputGrows : (∃ t, exec (.process 0 f14 14) swHalf = .next t) ∧
    Instr.malformed.line ∈ [Line.result, .tblFull] ∧ ∃ t, exec .malformed (rxNext swHalf 1 f17) = .next t :=
  ⟨⟨_, rfl⟩, by decide, (next_of_seen (e := [.frame ⟨.malformed, false⟩ []]) (tbl := []) (f := 1#4) (by decide)).imp
    fun _ h => h.1⟩
/-- Idle; an RX transaction; a RESULT row and the RX transaction it answers; a host operation. -/
theorem witness_AgentStepsAreProcessOrHostOperations :
    let mal : Txn := ⟨.result, [1, 0], []⟩
    let rx : Txn := ⟨.rx, [1, 17], f17⟩
    let runs := fun (q : List Txn) e => (swHalf.setPending q).agentsOnly ∧
      ∃ t, step (swHalf.setPending q) = .next t ∧ t.out = e
    runs [] [] ∧ runs [rx] [.frame ⟨.malformed, false⟩ []] ∧ runs [mal, rx] [.frame ⟨.malformed, false⟩ []] ∧
    runs [⟨.faultRead, [], []⟩, rx] [.faultRead 0#4] :=
  ⟨⟨by unfold State.agentsOnly; decide, _, rfl, rfl⟩,
    ⟨by unfold State.agentsOnly; decide, next_of_seen (tbl := []) (f := 1#4) (by decide)⟩,
    ⟨by unfold State.agentsOnly; decide, next_of_seen (tbl := []) (f := 1#4) (by decide)⟩,
    ⟨by unfold State.agentsOnly; decide, next_of_seen (tbl := []) (f := 0#4) (by decide)⟩⟩
/-- The frame of test_ok (tbl_full = 1), LEARN on the full table, and an operation that does neither. -/
theorem witness_FaultBitsAreSetExactlyByTheirOutcome : Tbl.wf swSeq.tbl ∧
    (∃ t, exec (.process 0 (hex (mB ++ mC ++ [8, 0])) 14) swSeq = .next t ∧
      t.out = swSeq.out ++ [.frame ⟨.ok, true⟩ [⟨1, hex (mB ++ mC ++ [8, 0]), 14⟩]]) ∧
    (∃ t, exec (.learn stC 0) swSeq = .next t ∧ t.out = swSeq.out ++ [.learned true]) ∧
    ∃ t, exec (.lookup stA) swSeq = .next t ∧ t.out = swSeq.out ++ [.looked (some 0)] :=
  ⟨by decide, next_of_seen (tbl := [(stA, 0), (stB, 1)]) (f := 2#4) (by decide),
    next_of_seen (tbl := [(stA, 0), (stB, 1)]) (f := 2#4) (by decide),
    next_of_seen (tbl := [(stA, 0), (stB, 1)]) (f := 0#4) (by decide)⟩

end Sys2Proof.Tests
end

section
/-! Derived widths (spec/00_scope.md R6): `clog2` as a Galois connection, from which both widths' leastness follows. -/

namespace Sys2Proof.Machine

theorem clog2_le_iff (n w : Nat) : clog2 n ≤ w ↔ n ≤ 2 ^ w :=
  ⟨fun h => (clog2_spec n).1.trans (Nat.pow_le_pow_right (by decide) h), (clog2_spec n).2 w⟩

theorem portW_le_iff (P : Params) (w : Nat) : P.portW ≤ w ↔ 1 ≤ w ∧ P.numPorts ≤ 2 ^ w := by
  rw [Params.portW, max_le_iff, clog2_le_iff]

theorem lenW_le_iff (P : Params) (w : Nat) : P.lenW ≤ w ↔ P.maxFrameBytes + 4 < 2 ^ w := by
  rw [Params.lenW, clog2_le_iff, Nat.lt_iff_add_one_le]

/-- Settles O58: each width is the least one because it lies below exactly the widths that are wide enough. -/
theorem derivedWidthsAreLeast : Obligations.DerivedWidthsAreLeast := by
  unfold Obligations.DerivedWidthsAreLeast
  intro P
  obtain ⟨hpos, hports⟩ := (portW_le_iff P P.portW).1 le_rfl
  exact ⟨hpos, hports, fun w h1 hw => (portW_le_iff P w).2 ⟨h1, hw⟩, (lenW_le_iff P P.lenW).1 le_rfl,
    fun w => (lenW_le_iff P w).2⟩

end Sys2Proof.Machine
end

section
/-! What the decoder answers is well formed (R7, R88, R91, R92), table by table. -/

namespace Sys2Proof

theorem decodeFrame_wf {P : Params} {inp : Nat} {F : Frame} (hp : portOk P inp = true)
    (hl : F.length ≤ P.maxFrameBytes) : (decodeFrame P inp F).wf P = true := by
  unfold decodeFrame
  split
  · next h14 => simp [Instr.wf, hp, h14]
  · next h14 =>
    split
    · split
      · next h18 => simp [Instr.wf, hp]; omega
      · next h18 => simp [Instr.wf, hp]; omega
    · next htpid => simp [Instr.wf, hp, htpid]; omega

/-- Distinct numbers that fit a field stay distinct in it. -/
theorem ofNat_ne_of_fits {w a b : Nat} (ha : fits w a = true) (hb : fits w b = true) (h : a ≠ b) :
    BitVec.ofNat w a ≠ BitVec.ofNat w b := by
  simp only [fits, decide_eq_true_eq] at ha hb
  rwa [Ne, ← BitVec.toNat_inj, BitVec.toNat_ofNat, BitVec.toNat_ofNat, Nat.mod_eq_of_lt ha, Nat.mod_eq_of_lt hb]

theorem decodePolicyRow_wf {P : Params} {fields : List Nat} {F : Frame} {i : Instr}
    (h : decodePolicyRow P fields F = .ok i) : i.wf P = true := by
  unfold decodePolicyRow at h
  split at h <;> simp only [require_eq_ok, Except.ok.injEq, Bool.and_eq_true, reduceCtorEq] at h
  · obtain ⟨hd, ⟨hsv, hdv⟩, rfl⟩ := h
    split
    · exact hd
    · next hne => simp [Instr.wf, hd, ofNat_ne_of_fits hdv hsv hne]
  · obtain ⟨hd, -, rfl⟩ := h; exact hd
  · obtain ⟨hd, ⟨⟨hdv, -⟩, hvid⟩, rfl⟩ := h
    split
    · split
      · exact hd
      · next hne => simp [Instr.wf, hd, ofNat_ne_of_fits hvid hdv (Ne.symm hne)]
    · simp [Instr.wf, hd]
  · obtain ⟨hd, rfl⟩ := h; exact hd

theorem decodeActions_wf {P : Params} {fields : List Nat} {bytes : Frame} {actions : List Action}
    (h : decodeActions P fields bytes = .ok actions) : actions.all (Action.wf P) = true := by
  induction fields, bytes using decodeActions.induct P generalizing actions with
  | case1 => rw [decodeActions, Except.ok.injEq] at h; subst h; rfl
  | case2 => simp [decodeActions] at h
  | case3 => simp [decodeActions] at h
  | case4 port len more bytes hport hlen rest hrest ih =>
    have hhead : actions = { port := port, bytes := bytes.take len, length := len } :: rest := by
      simpa [decodeActions, hport, hlen, hrest] using h.symm
    simp [hhead, Action.wf, hport, hlen, ih hrest]
  | case5 port len more bytes hport hlen why hwhy => simp [decodeActions, hport, hlen, hwhy] at h
  | case6 port len more bytes hport hlen => simp [decodeActions, hport, hlen] at h
  | case7 port len more bytes hport => simp [decodeActions, hport] at h

theorem decodeResult_wf {P : Params} {fields : List Nat} {bytes : Frame} {i : Instr}
    (h : decodeResult P fields bytes = .ok i) : i.wf P = true := by
  unfold decodeResult at h
  split at h
  · rw [require_eq_ok] at h
    obtain ⟨-, h⟩ := h
    split at h
    · split at h
      · next actions ha => injection h with h; subst h; exact decodeActions_wf ha
      · cases h
    · simp only [require_eq_ok] at h
      obtain ⟨-, -, h⟩ := h
      split at h
      · obtain ⟨-, h⟩ := require_eq_ok.1 h; injection h with h; subst h; rfl
      · split at h <;> injection h with h <;> subst h <;> rfl
  · cases h

theorem decode_wf {P : Params} {t : Txn} {i : Instr} (h : decode P t = .ok i) : i.wf P = true := by
  rcases t with ⟨line, fields, bytes⟩
  simp only [decode] at h
  split at h
  case h_4 => exact decodePolicyRow_wf h
  case h_18 => exact decodeResult_wf h
  all_goals simp only [require_eq_ok, Except.ok.injEq, Bool.and_eq_true, decide_eq_true_eq, reduceCtorEq] at h
  -- RX, and DEST by its class
  case h_1 => obtain ⟨hp, ⟨rfl, hl⟩, rfl⟩ := h; exact decodeFrame_wf hp hl
  case h_3 =>
    obtain ⟨hp, -, rfl⟩ := h
    split
    · exact hp
    · next hbcast => split <;> simp [Instr.wf, hp, hbcast]
  -- the operations with a port or a length operand
  case h_5 => obtain ⟨hlen, rfl⟩ := h; exact hlen
  case h_9 | h_11 => obtain ⟨hp, -, rfl⟩ := h; exact hp
  case h_12 => obtain ⟨hd, ⟨-, hlen⟩, rfl⟩ := h; simp [Instr.wf, hd, hlen]
  case h_13 => obtain ⟨hp, hlen, rfl⟩ := h; simp [Instr.wf, hp, hlen]
  -- the operations on whose operands `Instr.wf` puts no condition
  case h_2 => obtain ⟨-, -, rfl⟩ := h; rfl
  case h_10 | h_14 | h_19 | h_20 => obtain ⟨-, rfl⟩ := h; rfl
  case h_6 | h_7 | h_8 | h_15 | h_16 | h_17 => subst h; rfl

/-- Settles O4: the decoder checks every width and row condition before it answers. -/
theorem decodedOperationsAreWellFormed : Obligations.DecodedOperationsAreWellFormed := by
  unfold Obligations.DecodedOperationsAreWellFormed
  exact fun _ _ _ => decode_wf

end Sys2Proof
end

section
/-! Every RX transaction within the contract is answered by one RESULT (R15, R30, R32), and how each line that carries
one comes down to `receive`. -/

namespace Sys2Proof.Machine

/-- `t` is the state after the PROCESS of one frame, as far as the frame's RESULT and what it leaves alone say it. -/
def Answers (s t : State) : Prop :=
  ∃ r actions, t.out = s.out ++ [.frame r actions] ∧ t.portCfg = s.portCfg ∧ t.params = s.params ∧
    t.pending = s.pending

theorem answers_of_receive {inp : Nat} {F : Frame} {s t : State} (h : receive inp F s = .next t) : Answers s t := by
  obtain ⟨-, hparams, hpending, hcfg, ⟨r, actions, hout, -⟩, -⟩ := receive_effect h
  exact ⟨r, actions, hout, hcfg, hparams, hpending⟩

/-- Within the RX contract each of the four ends of a frame has a next state. -/
theorem receive_completes {inp : Nat} {F : Frame} {s : State} (hl : F.length ≤ s.params.maxFrameBytes) :
    ∃ t, receive inp F s = .next t := by
  rcases receive_cases (inp := inp) hl with ⟨-, e⟩ | ⟨_, -, ⟨-, e⟩ | ⟨_, -, ⟨-, e⟩ | ⟨-, _, -, e⟩⟩⟩
  all_goals exact ⟨_, e⟩

/-- An operation that is the PROCESS of a frame within the contract is answered. -/
theorem answered_of_exec_eq_receive {i : Instr} {inp : Nat} {F : Frame} {s : State}
    (he : exec i s = receive inp F s) (hl : F.length ≤ s.params.maxFrameBytes) :
    ∃ t r actions, exec i s = .next t ∧ t.out = s.out ++ [.frame r actions] ∧ t.portCfg = s.portCfg ∧
      t.params = s.params ∧ t.pending = s.pending := by
  obtain ⟨t, ht⟩ := receive_completes (inp := inp) hl
  obtain ⟨r, actions, h⟩ := answers_of_receive ht
  exact ⟨t, r, actions, he.trans ht, h⟩

theorem exec_process_length (inp : Nat) (F : Frame) (s : State) :
    exec (.process inp F F.length) s = receive inp F s := if_pos rfl

theorem exec_short {inp : Nat} {F : Frame} {s : State} (h : F.length < 14) :
    exec (.short inp F) s = receive inp F s := if_pos h

theorem exec_untagged {inp : Nat} {dm sm : Mac} {et : Half} {payload : Frame} {s : State} (h : et ≠ s.params.tpid) :
    exec (.untagged inp dm sm et payload) s =
      receive inp (frameBytes s.params (.untagged inp dm sm et payload)) s := if_neg h

theorem exec_shortTagged {inp : Nat} {dm sm : Mac} {rest : Frame} {s : State} (h : rest.length < 4) :
    exec (.shortTagged inp dm sm rest) s =
      receive inp (frameBytes s.params (.shortTagged inp dm sm rest)) s := if_pos h

theorem exec_tagged (inp : Nat) (dm sm : Mac) (pri : BitVec 4) (vid : VlanId) (et : Half) (payload : Frame)
    (s : State) : exec (.tagged inp dm sm pri vid et payload) s =
      receive inp (frameBytes s.params (.tagged inp dm sm pri vid et payload)) s := rfl

theorem frameBytes_untagged_length (P : Params) (inp : Nat) (dm sm : Mac) (et : Half) (payload : Frame) :
    (frameBytes P (.untagged inp dm sm et payload)).length = 14 + payload.length := by
  simp [frameBytes]; omega

theorem frameBytes_shortTagged_length (P : Params) (inp : Nat) (dm sm : Mac) (rest : Frame) :
    (frameBytes P (.shortTagged inp dm sm rest)).length = 14 + rest.length := by
  simp [frameBytes]; omega

theorem frameBytes_tagged_length (P : Params) (inp : Nat) (dm sm : Mac) (pri : BitVec 4) (vid : VlanId) (et : Half)
    (payload : Frame) : (frameBytes P (.tagged inp dm sm pri vid et payload)).length = 18 + payload.length := by
  simp [frameBytes]; omega

/-- Settles O27: PROCESS and the four frame classes are each the `receive` of their frame. -/
theorem everyRxTransactionIsAnswered : Obligations.EveryRxTransactionIsAnswered := by
  unfold Obligations.EveryRxTransactionIsAnswered
  intro s answered
  refine ⟨fun inp F hl => ?process, fun inp F h14 hl => ?short, fun inp dm sm et payload het hl => ?untagged,
    fun inp dm sm rest h4 hl => ?shortTagged, fun inp dm sm pri vid et payload hl => ?tagged⟩
  case process => exact answered_of_exec_eq_receive (exec_process_length inp F s) hl
  case short => exact answered_of_exec_eq_receive (exec_short h14) hl
  case untagged =>
    exact answered_of_exec_eq_receive (exec_untagged het) (by rwa [frameBytes_untagged_length])
  case shortTagged =>
    exact answered_of_exec_eq_receive (exec_shortTagged h4) (by rwa [frameBytes_shortTagged_length])
  case tagged =>
    exact answered_of_exec_eq_receive (exec_tagged ..) (by rwa [frameBytes_tagged_length])

end Sys2Proof.Machine
end

section
/-! What an operation does to the parameters, the queue and the output (R6, R61), and the RESULT rows, which alone
take a transaction from the queue. -/

namespace Sys2Proof.Machine

/-- A RESULT row is the report of the RX transaction next in the queue, whatever it says of it. -/
theorem exec_resultLine {i : Instr} (hl : i.line ∈ [.result, .tblFull]) (s : State) :
    ∃ row, exec i s = reporting row s := by
  cases i with
  | ok | malformed | unknownIngress | unknownEgress | tblFull =>
    simp only [exec, execOk, execMalformed, execUnknownIngress, execUnknownEgress, execTblFull]
    exact ⟨_, rfl⟩
  | _ => simp [Instr.line] at hl

/-- The RX transaction a RESULT row answers is the one it takes from the queue. -/
theorem resultLine_next {i : Instr} {s t : State} (hl : i.line ∈ [.result, .tblFull]) (h : exec i s = .next t) :
    ∃ inp F, s.receivesNext inp F t.pending ∧ receive inp F (s.setPending t.pending) = .next t := by
  obtain ⟨row, hrow⟩ := exec_resultLine hl s
  obtain ⟨inp, F, rest, hn, hr⟩ := reporting_next (hrow ▸ h)
  obtain ⟨hq, hp, hlen⟩ := nextRx_some hn
  obtain ⟨_, _, -, -, -, hrest⟩ := answers_of_receive hr
  rw [State.setPending_pending] at hrest
  subst hrest
  exact ⟨inp, F, ⟨hq, of_decide_eq_true hp, hlen⟩, hr⟩

/-- The parameters stay, the output grows by at most one event, and the queue stays but for the RESULT rows. -/
theorem exec_keeps {i : Instr} {s t : State} (h : exec i s = .next t) :
    t.params = s.params ∧ (i.line ∉ [.result, .tblFull] → t.pending = s.pending) ∧
      ∃ events, t.out = s.out ++ events ∧ events.length ≤ 1 := by
  cases exec_shape h with
  | frame inp F _ h =>
    obtain ⟨r, actions, hout, -, hparams, hpending⟩ := answers_of_receive h
    exact ⟨hparams, fun _ => hpending, _, hout, le_rfl⟩
  | reports inp F rest hl _ h =>
    obtain ⟨r, actions, hout, -, hparams, -⟩ := answers_of_receive h
    exact ⟨hparams, fun hl' => absurd (by simpa using hl) hl', _, hout, le_rfl⟩
  | returns e _ _ h => subst h; exact ⟨rfl, fun _ => rfl, [e], rfl, le_rfl⟩
  | header hdr h => subst h; exact ⟨rfl, fun _ => rfl, [.decoded (some hdr)], rfl, le_rfl⟩
  | learns sm inp _ h => subst h; exact ⟨by simp, fun _ => by simp, [.learned (learn sm inp s).2], by simp, le_rfl⟩
  | config p c _ h => subst h; exact ⟨rfl, fun _ => rfl, [], by simp, Nat.zero_le 1⟩
  | resets _ h => subst h; exact ⟨rfl, fun _ => rfl, [], by simp, Nat.zero_le 1⟩

/-- Settles O57, from the shape of every operation's next state. -/
theorem parametersFixedAndOutputGrows : Obligations.ParametersFixedAndOutputGrows := by
  unfold Obligations.ParametersFixedAndOutputGrows
  intro i s t h
  obtain ⟨hparams, hpending, hout⟩ := exec_keeps h
  refine ⟨hparams, hpending, fun hl => ?_, hout⟩
  obtain ⟨inp, F, hrx, -⟩ := resultLine_next hl h
  exact ⟨inp, F, hrx⟩

end Sys2Proof.Machine
end

section
/-! One step of a run of the agents' transactions (R13, R15): the line of the transaction at the front decides whether
it is a PROCESS, a RESULT row with the PROCESS it answers, or a host operation. -/

namespace Sys2Proof.Machine

theorem step_cases {s t : State} (h : step s = .next t) :
    (s.pending = [] ∧ t = s) ∨
    ∃ x rest i, s.pending = x :: rest ∧ decode s.params x = .ok i ∧ exec i (s.setPending rest) = .next t := by
  unfold step at h
  split at h
  · next hq => exact .inl ⟨hq, next_inj h⟩
  · next x rest hq =>
    split at h
    · next i hd => exact .inr ⟨x, rest, i, hq, hd, h⟩
    · cases h

theorem agentLine_cases {l : Line} (h : agentLine l = true) :
    l ∈ [.rx, .process] ∨ l ∈ [.result, .tblFull] ∨ l ∈ [.cfgWrite, .portCfg, .cfgRead, .faultRead, .reset] := by
  revert h; cases l <;> decide

/-- The frame class a frame decodes to is the PROCESS of that frame (R88, R170). -/
theorem exec_decodeFrame (inp : Nat) (F : Frame) (s : State) :
    exec (decodeFrame s.params inp F) s = receive inp F s := by
  have hbytes := frameBytes_decodeFrame s.params inp F
  unfold decodeFrame at hbytes ⊢
  split
  · next h14 => exact exec_short h14
  · next h14 =>
    simp only [if_neg h14] at hbytes
    split
    · next htpid =>
      simp only [if_pos htpid] at hbytes
      split
      · next h18 => rw [if_pos h18] at hbytes; rw [exec_shortTagged (by simp; omega), hbytes]
      · next h18 => rw [if_neg h18] at hbytes; rw [exec_tagged, hbytes]
    · next htpid => rw [if_neg htpid] at hbytes; rw [exec_untagged htpid, hbytes]

/-- The RX line carries a port and the frame's own length, and the frame's class is decided by its bytes (R88, R89). -/
theorem decode_rxLine {P : Params} {fields : List Nat} {F : Frame} {i : Instr}
    (h : decode P { line := .rx, fields := fields, bytes := F } = .ok i) :
    ∃ inp, fields = [inp, F.length] ∧ portOk P inp = true ∧ i = decodeFrame P inp F := by
  match fields with
  | [inp, len] =>
    simp only [decode, require_eq_ok, Except.ok.injEq, Bool.and_eq_true, decide_eq_true_eq] at h
    obtain ⟨hp, ⟨rfl, -⟩, rfl⟩ := h
    exact ⟨inp, rfl, hp, rfl⟩
  | [] | [_] | _ :: _ :: _ :: _ => simp [decode] at h

theorem decode_processLine {P : Params} {fields : List Nat} {F : Frame} {i : Instr}
    (h : decode P { line := .process, fields := fields, bytes := F } = .ok i) :
    ∃ inp len, fields = [inp, len] ∧ portOk P inp = true ∧ i = .process inp F len := by
  match fields with
  | [inp, len] =>
    simp only [decode, require_eq_ok, Except.ok.injEq] at h
    obtain ⟨hp, -, rfl⟩ := h
    exact ⟨inp, len, rfl, hp, rfl⟩
  | [] | [_] | _ :: _ :: _ :: _ => simp [decode] at h

theorem execProcess_next {inp len : Nat} {F : Frame} {s t : State} (h : exec (.process inp F len) s = .next t) :
    len = F.length ∧ receive inp F s = .next t := by
  simp only [exec, execProcess] at h
  split at h
  · next hlen => exact ⟨hlen, h⟩
  · cases h

/-- A transaction on the RX or the PROCESS line that completes is the PROCESS of its own bytes. -/
theorem datapathLine_next {x : Txn} {i : Instr} {s t : State} (hl : x.line ∈ [.rx, .process])
    (hd : decode s.params x = .ok i) (h : exec i s = .next t) :
    ∃ inp, x.fields = [inp, x.bytes.length] ∧ inp < 2 ^ s.params.portW ∧ receive inp x.bytes s = .next t := by
  rcases x with ⟨line, fields, F⟩
  simp only [List.mem_cons, List.not_mem_nil, or_false] at hl
  rcases hl with rfl | rfl
  · obtain ⟨inp, hf, hp, rfl⟩ := decode_rxLine hd
    exact ⟨inp, hf, of_decide_eq_true hp, exec_decodeFrame inp F s ▸ h⟩
  · obtain ⟨inp, len, hf, hp, rfl⟩ := decode_processLine hd
    obtain ⟨rfl, hr⟩ := execProcess_next h
    exact ⟨inp, hf, of_decide_eq_true hp, hr⟩

/-- What the host reads, and what alone its operations add to the output. -/
def isHostRead (e : Event) : Prop := (∃ word, e = .cfgRead word) ∨ ∃ word, e = .faultRead word

theorem execCfgRead_next {p : Nat} {s t : State} (h : exec (.cfgRead p) s = .next t) :
    ∃ word, t = s.emit (.cfgRead word) := by
  simp only [exec, execCfgRead] at h
  split at h
  · exact ⟨_, next_inj h⟩
  · cases h

/-- A transaction on a host line that completes is one of the host's four operations: PORT_CFG is the CFG_WRITE of its
word's fields (R94). -/
theorem hostLine_next {i : Instr} {s t : State}
    (hl : i.line ∈ [.cfgWrite, .portCfg, .cfgRead, .faultRead, .reset]) (h : exec i s = .next t) :
    ∃ j : Instr, j.line ∈ [.cfgWrite, .cfgRead, .faultRead, .reset] ∧ exec j s = .next t ∧
      ∃ events, t.out = s.out ++ events ∧ ∀ e ∈ events, isHostRead e := by
  cases i with
  | cfgWrite p valid kind vlan =>
    obtain ⟨-, rfl⟩ := writePortCfg_cases h
    exact ⟨_, by simp [Instr.line], h, [], by simp, by simp⟩
  | portCfg p word =>
    obtain ⟨-, rfl⟩ := writePortCfg_cases h
    exact ⟨.cfgWrite p (wordValid word) (wordKind word) (wordVlan word), by simp [Instr.line], h, [], by simp, by simp⟩
  | cfgRead p =>
    obtain ⟨word, ht⟩ := execCfgRead_next h
    exact ⟨_, by simp [Instr.line], h, [.cfgRead word], by simp [ht], by simp [isHostRead]⟩
  | faultRead =>
    exact ⟨_, by simp [Instr.line], h, [.faultRead s.fault], by simp [next_inj h], by simp [isHostRead]⟩
  | reset => exact ⟨_, by simp [Instr.line], h, [], by simp [next_inj h], by simp⟩
  | _ => simp [Instr.line] at hl

/-- `t` comes from `s` by the PROCESS of one RX transaction, taken from the front of the queue or from behind the RESULT
row that answers it (R13, R32). -/
def ProcessesOne (s t : State) : Prop :=
  ∃ inp F taken x rest r actions, s.pending = taken ++ x :: rest ∧
    (taken = [] ∨ ∃ y : Txn, taken = [y] ∧ y.line ∈ [.result, .tblFull]) ∧
    x.line ∈ [.rx, .process] ∧ x.fields = [inp, F.length] ∧ x.bytes = F ∧ inp < 2 ^ s.params.portW ∧
    exec (.process inp F F.length) { s with pending := rest } = .next t ∧
    t.out = s.out ++ [.frame r actions] ∧ t.pending = rest

/-- `t` comes from `s` by one of the host's four operations, taken from the front of the queue (R13, R33). -/
def HostOperates (s t : State) : Prop :=
  ∃ x rest i, s.pending = x :: rest ∧ i.line ∈ [.cfgWrite, .cfgRead, .faultRead, .reset] ∧
    exec i { s with pending := rest } = .next t ∧ t.pending = rest ∧
    ∃ events, t.out = s.out ++ events ∧ ∀ e ∈ events, isHostRead e

theorem processesOne_of_datapathLine {x : Txn} {rest : List Txn} {i : Instr} {s t : State}
    (hq : s.pending = x :: rest) (hl : x.line ∈ [.rx, .process]) (hd : decode s.params x = .ok i)
    (h : exec i (s.setPending rest) = .next t) : ProcessesOne s t := by
  obtain ⟨inp, hf, hp, hr⟩ := datapathLine_next hl (s := s.setPending rest) hd h
  obtain ⟨r, actions, hout, -, -, hpending⟩ := answers_of_receive hr
  exact ⟨inp, x.bytes, [], x, rest, r, actions, hq, .inl rfl, hl, hf, rfl, hp,
    (exec_process_length inp x.bytes _).trans hr, hout, hpending⟩

theorem processesOne_of_resultLine {x : Txn} {rest : List Txn} {i : Instr} {s t : State}
    (hq : s.pending = x :: rest) (hl : x.line ∈ [.result, .tblFull]) (hd : decode s.params x = .ok i)
    (h : exec i (s.setPending rest) = .next t) : ProcessesOne s t := by
  obtain ⟨inp, F, ⟨hrest, hp, -⟩, hr⟩ := resultLine_next (decode_line hd ▸ hl) h
  rw [State.setPending_pending] at hrest
  obtain ⟨r, actions, hout, -⟩ := answers_of_receive hr
  exact ⟨inp, F, [x], _, t.pending, r, actions, by rw [hq, hrest]; rfl, .inr ⟨x, rfl, hl⟩, by simp, rfl, rfl, hp,
    (exec_process_length inp F _).trans hr, hout, rfl⟩

theorem hostOperates_of_hostLine {x : Txn} {rest : List Txn} {i : Instr} {s t : State}
    (hq : s.pending = x :: rest) (hl : x.line ∈ [.cfgWrite, .portCfg, .cfgRead, .faultRead, .reset])
    (hd : decode s.params x = .ok i) (h : exec i (s.setPending rest) = .next t) : HostOperates s t := by
  obtain ⟨j, hj, hjt, hout⟩ := hostLine_next (decode_line hd ▸ hl) h
  have hnot : j.line ∉ [.result, .tblFull] := by
    revert hj; cases j.line <;> decide
  obtain ⟨-, hpending, -⟩ := exec_keeps hjt
  exact ⟨x, rest, j, hq, hj, hjt, hpending hnot, hout⟩

/-- One step under agents' transactions: idle, one PROCESS, or one host operation. -/
theorem agentStep_cases {s t : State} (ha : s.agentsOnly) (h : step s = .next t) :
    (s.pending = [] ∧ t = s) ∨ ProcessesOne s t ∨ HostOperates s t := by
  rcases step_cases h with hidle | ⟨x, rest, i, hq, hd, hi⟩
  · exact .inl hidle
  · have hx : agentLine x.line = true := ha x (by simp [hq])
    rcases agentLine_cases hx with hl | hl | hl
    · exact .inr (.inl (processesOne_of_datapathLine hq hl hd hi))
    · exact .inr (.inl (processesOne_of_resultLine hq hl hd hi))
    · exact .inr (.inr (hostOperates_of_hostLine hq hl hd hi))

theorem agentsOnly_of_suffix {s t : State} (ha : s.agentsOnly) (h : t.pending <:+ s.pending) : t.agentsOnly :=
  fun x hx => ha x (h.subset hx)

/-- Settles O59: the three kinds of step each leave a suffix of the queue, so the run goes on so. -/
theorem agentStepsAreProcessOrHostOperations : Obligations.AgentStepsAreProcessOrHostOperations := by
  unfold Obligations.AgentStepsAreProcessOrHostOperations
  intro s t ha h
  have hcases := agentStep_cases ha h
  refine ⟨agentsOnly_of_suffix ha ?_, hcases⟩
  rcases hcases with ⟨-, rfl⟩ | ⟨_, _, taken, x, rest, _, _, hq, -, -, -, -, -, -, -, hrest⟩ |
    ⟨x, rest, _, hq, -, -, hrest, -⟩
  · exact List.suffix_rfl
  · exact ⟨taken ++ [x], by simp [hq, hrest]⟩
  · exact ⟨[x], by simp [hq, hrest]⟩

end Sys2Proof.Machine
end

section
/-! The invariant of the state (R21, R25, R26, R28, R50): reset meets it and every form of a next state keeps it. -/

namespace Sys2Proof.Machine

/-- A write that LEARN allows keeps the count within TABLE_DEPTH: in place it is the same, and a new entry finds room. -/
theorem Tbl.length_write_le {P : Params} {t : List (Mac × Nat)} (hw : Tbl.wf t) {sm : Mac} (inp : Nat)
    (hroom : (Tbl.lookup t sm).isSome = true ∨ hasRoom P t = true) {depth : Nat} (hdepth : P.tableDepth = some depth)
    (hle : t.length ≤ depth) : (Tbl.write t sm inp).length ≤ depth := by
  rw [Tbl.length_write hw]
  split
  · exact hle
  · next hnew =>
    have hlt : t.length < depth := by simpa [hasRoom, hdepth] using hroom.resolve_left hnew
    exact hlt

theorem State.Inv.setTbl_write {s : State} (hi : s.Inv) {sm : Mac} {inp : Nat}
    (hroom : (Tbl.lookup s.tbl sm).isSome = true ∨ hasRoom s.params s.tbl = true) (hp : inp < 2 ^ s.params.portW) :
    (s.setTbl (Tbl.write s.tbl sm inp)).Inv :=
  { hi with
    tblWf := Tbl.write_wf hi.tblWf sm inp
    tblDepth := fun depth hdepth => Tbl.length_write_le hi.tblWf inp hroom hdepth (hi.tblDepth depth hdepth)
    tblPorts := fun e he => by
      rcases Tbl.mem_write he with rfl | he
      · exact hp
      · exact hi.tblPorts e he }

theorem State.Inv.learn {s : State} (hi : s.Inv) (sm : Mac) {inp : Nat} (hp : inp < 2 ^ s.params.portW) :
    (learn sm inp s).1.Inv := by
  rcases learn_cases sm inp s with ⟨e, hroom⟩ | ⟨e, -⟩ <;> rw [e]
  · exact hi.setTbl_write hroom hp
  · exact { hi with }

theorem Work.unspecified_inp_lt (P : Params) (n : Nat) : (Work.unspecified P n).inp < 2 ^ P.portW :=
  Nat.mod_lt _ (Nat.two_pow_pos _)

theorem Work.unspecified_len_lt (P : Params) (n : Nat) : (Work.unspecified P n).len < 2 ^ P.lenW :=
  Nat.mod_lt _ (Nat.two_pow_pos _)

theorem Work.unspecified_d_lt (P : Params) (n : Nat) : (Work.unspecified P n).d < 2 ^ P.portW :=
  Nat.mod_lt _ (Nat.two_pow_pos _)

/-- A frame leaves free values in the registers and the frame buffer, which are cut to their widths. -/
theorem State.Inv.of_freeValues {s t : State} (hi : s.Inv) {n m : Nat} (hparams : t.params = s.params)
    (htbl : t.tbl = s.tbl) (hcfg : t.portCfg = s.portCfg) (hw : t.w = Work.unspecified s.params n)
    (hframe : t.frame = (Config.freeFrame m).take s.params.maxFrameBytes) : t.Inv where
  legal := hparams ▸ hi.legal
  tblWf := htbl ▸ hi.tblWf
  tblDepth := hparams ▸ htbl ▸ hi.tblDepth
  tblPorts := hparams ▸ htbl ▸ hi.tblPorts
  cfgLength := hparams ▸ hcfg ▸ hi.cfgLength
  inpFits := hparams ▸ hw ▸ Work.unspecified_inp_lt s.params n
  lenFits := hparams ▸ hw ▸ Work.unspecified_len_lt s.params n
  dFits := hparams ▸ hw ▸ Work.unspecified_d_lt s.params n
  frameFits := by simp [hframe, hparams]

theorem State.Inv.receive {s t : State} (hi : s.Inv) {inp : Nat} {F : Frame} (hp : portOk s.params inp = true)
    (h : receive inp F s = .next t) : t.Inv := by
  obtain ⟨-, hparams, -, hcfg, -, hw, hframe, htbl⟩ := receive_effect h
  rcases htbl with htbl | ⟨sm, htbl, hroom⟩
  · exact hi.of_freeValues hparams htbl hcfg hw hframe
  · exact (hi.setTbl_write hroom (of_decide_eq_true hp)).of_freeValues hparams htbl hcfg hw hframe

theorem resetAt_inv {P : Params} (n : Nat) (hlegal : P.legal = true) : (State.resetAt P n).Inv where
  legal := hlegal
  tblWf := List.Pairwise.nil
  tblDepth := fun depth _ => Nat.zero_le depth
  tblPorts := fun _ he => nomatch he
  cfgLength := by simp [State.resetAt]
  inpFits := Work.unspecified_inp_lt P n
  lenFits := Work.unspecified_len_lt P n
  dFits := Work.unspecified_d_lt P n
  frameFits := Nat.zero_le _

theorem exec_keeps_inv {i : Instr} {s t : State} (hi : s.Inv) (hwf : i.wf s.params = true) (h : exec i s = .next t) :
    t.Inv := by
  cases exec_shape h with
  | frame inp F _ h hp => exact hi.receive (hp _ hwf) h
  | reports inp F rest _ hn h =>
    obtain ⟨-, hp, -⟩ := nextRx_some hn
    have hrest : (s.setPending rest).Inv := { hi with }
    exact hrest.receive hp h
  | returns e _ _ h => subst h; exact { hi with }
  | header hdr h => subst h; exact { hi with }
  | learns sm inp _ h hp =>
    subst h
    have hlearnt : (learn sm inp s).1.Inv := hi.learn sm (of_decide_eq_true (hp _ hwf))
    exact { hlearnt with }
  | config p c _ h => subst h; exact { hi with cfgLength := by simp [hi.cfgLength] }
  | resets _ h => subst h; exact { resetAt_inv s.free hi.legal with }

/-- Settles O50: the decoder answers only operations whose port fits its wires, and those keep the invariant. -/
theorem stepKeepsInvariant : Obligations.StepKeepsInvariant := by
  unfold Obligations.StepKeepsInvariant
  intro s t hi h
  rcases step_cases h with ⟨-, rfl⟩ | ⟨x, rest, i, -, hd, hexec⟩
  · exact hi
  · have hrest : (s.setPending rest).Inv := { hi with }
    exact exec_keeps_inv hrest (decode_wf hd) hexec

/-- Settles O51: an empty table, one register a port, and free values cut to their widths. -/
theorem resetMeetsInvariant : Obligations.ResetMeetsInvariant := by
  unfold Obligations.ResetMeetsInvariant
  exact fun _ n hlegal => resetAt_inv n hlegal

end Sys2Proof.Machine
end

section
/-! FAULT (R29): which outcome sets which bit, said once for every operation but RESET. -/

namespace Sys2Proof.Machine

/-- The machine's FAULT bit of a RESULT code is the one R29 pairs with it. -/
theorem faultBit_eq_bitOf (code : Code) : faultBit code = bitOf code := by cases code <;> rfl

/-- An address that is not mapped cannot be learned where no room is left. -/
theorem isFull_of_noRoom {s : State} (hw : Tbl.wf s.tbl) {sm : Mac} (hnew : Tbl.lookup s.tbl sm = none)
    (hroom : hasRoom s.params s.tbl = false) : s.isFull :=
  ⟨sm, by simp [canLearn_iff hw, hnew, hroom]⟩

/-- What an operation but RESET does to FAULT, by the event it shows: a frame's RESULT sets the bits of its outcome,
LEARN the bit of its tbl_full, and every other operation leaves FAULT. -/
inductive FaultEffect (i : Instr) (s t : State) : Prop
  | frame (r : Result) (actions : List Action) (hout : t.out = s.out ++ [.frame r actions])
      (hfault : t.fault = faultAfter s.fault r.tblFull (bitOf r.code))
      (hfull : r.tblFull = true → Tbl.wf s.tbl → s.isFull)
  | learns (tf : Bool) (hl : i.line = .learn) (hout : t.out = s.out ++ [.learned tf])
      (hfault : t.fault = faultAfter s.fault tf 0#4) (hfull : tf = true → Tbl.wf s.tbl → s.isFull)
  | leaves (hframe : ∀ r actions, t.out ≠ s.out ++ [.frame r actions])
      (hlearned : ∀ tf, t.out ≠ s.out ++ [.learned tf]) (hfault : t.fault = s.fault)

theorem faultEffect_of_receive {i : Instr} {inp : Nat} {F : Frame} {q : List Txn} {s t : State}
    (h : receive inp F (s.setPending q) = .next t) : FaultEffect i s t := by
  obtain ⟨-, -, -, -, ⟨r, actions, hout, hfault, hfull⟩, -⟩ := receive_effect h
  refine .frame r actions hout (by rw [hfault, faultBit_eq_bitOf]; rfl) fun htf hw => ?_
  obtain ⟨_, hnew, hroom⟩ := hfull htf
  exact isFull_of_noRoom hw hnew hroom

theorem faultEffect_of_learn {i : Instr} {sm : Mac} {inp : Nat} {s t : State} (hl : i.line = .learn)
    (h : t = (learn sm inp s).1.emit (.learned (learn sm inp s).2)) : FaultEffect i s t := by
  subst h
  rcases learn_cases sm inp s with ⟨e, -⟩ | ⟨e, hnew, hroom⟩ <;> rw [e]
  · exact .learns false hl rfl (by simp [faultAfter]) (by simp)
  · exact .learns true hl rfl (by simp [faultAfter, tblFullBit]) fun _ hw => isFull_of_noRoom hw hnew hroom

theorem exec_fault {i : Instr} {s t : State} (hi : i ≠ .reset) (h : exec i s = .next t) : FaultEffect i s t := by
  cases exec_shape h with
  | frame inp F _ h => exact faultEffect_of_receive (q := s.pending) h
  | reports inp F rest _ _ h => exact faultEffect_of_receive h
  | returns e he hl h => subst h; exact .leaves (by simpa using he) (by simpa using hl) rfl
  | header hdr h => subst h; exact .leaves (by simp) (by simp) rfl
  | learns sm inp hl h => exact faultEffect_of_learn hl h
  | config p c _ h => subst h; exact .leaves (by simp) (by simp) rfl
  | resets hr => exact absurd hr hi

/-- Settles O60: each clause names one kind of effect, and the event shown rules the other two out. -/
theorem faultBitsAreSetExactlyByTheirOutcome : Obligations.FaultBitsAreSetExactlyByTheirOutcome := by
  unfold Obligations.FaultBitsAreSetExactlyByTheirOutcome
  intro i s t hw hi h
  cases exec_fault hi h with
  | frame r actions hout hfault hfull =>
    refine ⟨fun r' actions' hout' => ?_, by simp [hout], fun hnot => absurd hout (hnot r actions)⟩
    obtain ⟨rfl, -⟩ : r = r' ∧ actions = actions' := by simpa [hout] using hout'
    exact ⟨hfault, fun htf => hfull htf hw⟩
  | learns tf hl hout hfault hfull =>
    refine ⟨by simp [hout], fun hout' => ?_, fun _ hnot => ?_⟩
    · obtain rfl : tf = true := by simpa [hout] using hout'
      exact ⟨hl, by simpa [faultAfter] using hfault, hfull rfl hw⟩
    · obtain rfl : tf = false := by simpa [hout] using hnot
      simpa [faultAfter] using hfault
  | leaves hframe hlearned hfault =>
    exact ⟨fun r actions hout => absurd hout (hframe r actions), fun hout => absurd hout (hlearned true),
      fun _ _ => hfault⟩

theorem and_faultAfter (fault : BitVec 4) (tf : Bool) (bit : BitVec 4) :
    fault &&& faultAfter fault tf bit = fault := by
  rw [faultAfter, BitVec.or_assoc]
  exact BitVec.eq_of_getLsbD_eq fun j _ => by rw [BitVec.getLsbD_and, BitVec.getLsbD_or]; exact inf_sup_self

/-- Settles O52: what sets FAULT bits adds them to those already there. -/
theorem faultBitsAreSticky : Obligations.FaultBitsAreSticky := by
  unfold Obligations.FaultBitsAreSticky
  intro i s t hi h
  cases exec_fault hi h with
  | frame _ _ _ hfault => rw [hfault, and_faultAfter]
  | learns _ _ _ hfault => rw [hfault, and_faultAfter]
  | leaves _ _ hfault => rw [hfault, BitVec.and_self]

/-- FAULT and TBL are written on the lines of frames, of LEARN and of RESET only (R26, R29). -/
theorem exec_otherLine_keeps {i : Instr} {s t : State} (h : exec i s = .next t)
    (hl : i.line ∉ [.rx, .process, .learn, .result, .tblFull, .reset]) : t.fault = s.fault ∧ t.tbl = s.tbl := by
  cases exec_shape h with
  | frame inp F hl' => rcases hl' with hl' | hl' <;> simp [hl'] at hl
  | reports inp F rest hl' => rcases hl' with hl' | hl' <;> simp [hl'] at hl
  | learns sm inp hl' => simp [hl'] at hl
  | resets hi => simp [hi, Instr.line] at hl
  | returns e _ _ h => subst h; exact ⟨rfl, rfl⟩
  | header hdr h => subst h; exact ⟨rfl, rfl⟩
  | config p c _ h => subst h; exact ⟨rfl, rfl⟩

/-- Settles O53: FAULT is written on the excepted lines only. -/
theorem otherOperationsLeaveFault : Obligations.OtherOperationsLeaveFault := by
  unfold Obligations.OtherOperationsLeaveFault
  exact fun _ _ _ h hl => (exec_otherLine_keeps h hl).1

/-- Settles O55: TBL is written on the excepted lines only. -/
theorem otherOperationsLeaveTable : Obligations.OtherOperationsLeaveTable := by
  unfold Obligations.OtherOperationsLeaveTable
  exact fun _ _ _ h hl => (exec_otherLine_keeps h hl).2

/-- Settles O56: a frame leaves every register, also where a RESULT row answers it, and so does LEARN. -/
theorem datapathLeavesConfiguration : Obligations.DatapathLeavesConfiguration := by
  unfold Obligations.DatapathLeavesConfiguration
  intro i s t h hl
  cases exec_shape h with
  | frame inp F _ h => obtain ⟨_, _, -, hcfg, -⟩ := answers_of_receive h; exact hcfg
  | reports inp F rest _ _ h => obtain ⟨_, _, -, hcfg, -⟩ := answers_of_receive h; exact hcfg
  | returns e _ _ h => subst h; rfl
  | header hdr h => subst h; rfl
  | learns sm inp _ h => subst h; simp
  | config p c hl' => rcases hl' with hl' | hl' <;> simp [hl'] at hl
  | resets hi => simp [hi, Instr.line] at hl

end Sys2Proof.Machine
end

section
/-! The actions of a frame are within the interface's bounds (R31, R116, R180), whatever the state. -/

namespace Sys2Proof.Machine

/-- Where a policy row forwards, the length it gives is its byte count, at most a tag longer than the frame (R116). -/
theorem forwards_length {P : Params} {src dst : PortConfig} {F bytes : Frame} {length : Nat} {h : Header}
    (hd : decodeHeader P F = some h) (hf : forwards P src dst h.vlanId F bytes length) :
    length = bytes.length ∧ length ≤ F.length + 4 := by
  have h14 := decodeHeader_length hd
  match src, dst, hf with
  | .access _, .access _, ⟨_, hbytes, hlength⟩ => subst hbytes hlength; exact ⟨rfl, by omega⟩
  | .access sv, .trunk, ⟨hbytes, hlength⟩ => subst hbytes hlength; simp [tagBytes_length]; omega
  | .trunk, .access dv, ⟨hvid, hbytes, hlength⟩ =>
    have htagged : isTagged P F = true := by rw [← decodeHeader_tagged hd, hvid]; rfl
    obtain ⟨h18, -⟩ := (isTagged_iff P F).1 htagged
    subst hbytes; simp; omega
  | .trunk, .trunk, ⟨hbytes, hlength⟩ => subst hbytes hlength; exact ⟨rfl, by omega⟩

/-- Under DROP the ingress port is no candidate: flooding leaves it out, and so does a hit on it (R150, R151). -/
theorem ne_ingress_of_mem_candidateList {s : State} {dm : Mac} {inp p : Nat} (hdrop : s.params.samePortHit = .drop)
    (hm : p ∈ candidateList s dm inp) : p ≠ inp := by
  unfold candidateList at hm
  split at hm
  · exact ((mem_flood _ _ _).1 hm).2
  · split at hm
    · exact ((mem_flood _ _ _).1 hm).2
    · next q _ =>
      rcases hitList_cases s.params q inp with ⟨e, hq⟩ | ⟨e, -⟩ <;> rw [e] at hm
      · obtain rfl := List.mem_singleton.1 hm
        exact hq.resolve_right (by simp [hdrop])
      · cases hm

/-- What R31, R116 and R180 ask of an action of a frame received on `inp`. -/
def ActionLegal (s : State) (inp : Nat) (a : Action) : Prop :=
  a.length = a.bytes.length ∧ a.port < s.params.numPorts ∧ (validCfg s a.port).isSome = true ∧
    a.length ≤ s.params.maxFrameBytes + 4 ∧ a.length < 2 ^ s.params.lenW ∧
    (s.params.samePortHit = .drop → a.port ≠ inp)

theorem actionLegal_of_policyAt {s : State} {inp d : Nat} {F : Frame} {h : Header} {c : PortCfg} {a : Action}
    (hl : F.length ≤ s.params.maxFrameBytes) (hd : decodeHeader s.params F = some h)
    (hm : d ∈ candidatesOf inp F h s)
    (ha : policyAt (latchEgress d (latchIngress c (afterLearn inp F h s).1)) = .ok (some a)) :
    ActionLegal s inp a := by
  obtain ⟨rfl, dst, hdst, hf⟩ := (policyAt_iff hd).1 ha
  obtain ⟨_, hvalid, -⟩ := holds_iff.1 hdst
  have hsome : (validCfg s a.port).isSome = true := by rw [hvalid]; rfl
  obtain ⟨hlength, hle⟩ := forwards_length hd hf
  have hmax : a.length ≤ s.params.maxFrameBytes + 4 := by omega
  exact ⟨hlength, validCfg_lt hsome, hsome, hmax, hmax.trans_lt ((lenW_le_iff _ _).1 le_rfl),
    fun hdrop => ne_ingress_of_mem_candidateList (by rwa [afterLearn_params]) hm⟩

/-- Of the four ends of a frame only OK has actions, those of the candidates in ascending order. -/
theorem receive_actions_legal {inp : Nat} {F : Frame} {s t : State} {r : Result} {actions : List Action}
    (h : receive inp F s = .next t) (hout : t.out = s.out ++ [.frame r actions]) :
    (actions.map Action.port).Nodup ∧ ∀ a ∈ actions, ActionLegal s inp a := by
  obtain ⟨hl, -⟩ := receive_effect h
  rcases receive_cases (inp := inp) hl with ⟨-, e⟩ | ⟨hdr, hd, ⟨-, e⟩ | ⟨c, -, ⟨-, e⟩ | ⟨-, acts, hacts, e⟩⟩⟩ <;>
    obtain rfl := next_inj (e.symm.trans h)
  case inr.inr.inr =>
    obtain ⟨-, rfl⟩ : _ ∧ acts = actions := by simpa using hout
    refine ⟨(actionsOf_ports hacts (candidateList_ascending _ _ _)).imp Nat.ne_of_lt, fun a ha => ?_⟩
    obtain ⟨d, hm, hpolicy⟩ := (mem_actionsOf hacts a).1 ha
    exact actionLegal_of_policyAt hl hd hm hpolicy
  all_goals
    obtain ⟨-, rfl⟩ : _ ∧ actions = [] := by simpa using hout
    simp

/-- A RESULT is shown by the PROCESS of a frame only (R15, R31). -/
theorem exec_shows_frame {i : Instr} {s t : State} {r : Result} {actions : List Action} (h : exec i s = .next t)
    (hout : t.out = s.out ++ [.frame r actions]) :
    ∃ inp F rest, receive inp F (s.setPending rest) = .next t := by
  cases exec_shape h with
  | frame inp F _ h => exact ⟨inp, F, s.pending, h⟩
  | reports inp F rest _ _ h => exact ⟨inp, F, rest, h⟩
  | returns e he _ h => subst h; exact absurd (by simpa using hout) (he r actions)
  | header hdr h => subst h; simp at hout
  | learns sm inp _ h => subst h; simp at hout
  | config p c _ h => subst h; simp at hout
  | resets _ h => subst h; simp at hout

/-- Settles O32: the RESULT is that of one frame's PROCESS, whose actions are legal. -/
theorem emittedActionsAreLegal : Obligations.EmittedActionsAreLegal := by
  unfold Obligations.EmittedActionsAreLegal
  intro i s t r actions h hout
  obtain ⟨inp, F, rest, hr⟩ := exec_shows_frame h hout
  obtain ⟨hnodup, hlegal⟩ := receive_actions_legal hr hout
  exact ⟨hnodup, inp, F, rest, (exec_process_length inp F _).trans hr, hlegal⟩

end Sys2Proof.Machine
end

section
/-! Noninterference (R23, R29, R36): what a frame shows and leaves in TBL and CFG depends on the parameters, TBL and CFG
alone. -/

namespace Sys2Proof.Machine

/-- The two states agree on what forwarding reads. -/
structure Agree (s u : State) : Prop where
  params : u.params = s.params
  tbl : u.tbl = s.tbl
  portCfg : u.portCfg = s.portCfg

theorem Agree.validCfg {s u : State} (ha : Agree s u) (p : Nat) : validCfg u p = validCfg s p :=
  validCfg_congr ha.params ha.portCfg p

theorem Agree.learn {s u : State} (ha : Agree s u) (sm : Mac) (inp : Nat) :
    Agree (learn sm inp s).1 (learn sm inp u).1 ∧ (learn sm inp u).2 = (learn sm inp s).2 := by
  unfold Machine.learn
  rw [ha.tbl, ha.params]
  split
  · exact ⟨⟨ha.params, rfl, ha.portCfg⟩, rfl⟩
  · split
    · exact ⟨⟨ha.params, rfl, ha.portCfg⟩, rfl⟩
    · exact ⟨⟨ha.params, ha.tbl, ha.portCfg⟩, rfl⟩

theorem Agree.afterLearn {s u : State} (ha : Agree s u) (inp : Nat) (F : Frame) (h : Header) :
    Agree (afterLearn inp F h s).1 (afterLearn inp F h u).1 ∧ (afterLearn inp F h u).2 = (afterLearn inp F h s).2 := by
  have hdecoded : Agree (latchHeader h (rxAccept inp F s)) (latchHeader h (rxAccept inp F u)) :=
    ⟨ha.params, ha.tbl, ha.portCfg⟩
  exact hdecoded.learn h.sm inp

theorem Agree.candidatesOf {s u : State} (ha : Agree s u) (inp : Nat) (F : Frame) (h : Header) :
    candidatesOf inp F h u = candidatesOf inp F h s := by
  obtain ⟨hlearnt, -⟩ := ha.afterLearn inp F h
  exact candidateList_congr hlearnt.params hlearnt.tbl h.dm inp

/-- The actions depend on the configuration, the frame and the working registers; the iterator is written first. -/
theorem Agree.actionsOf {s u : State} (ha : Agree s u) (hframe : u.frame = s.frame)
    (hw : ∀ d, { u.w with d := d } = { s.w with d := d }) (candidates : List Nat) :
    actionsOf u candidates = actionsOf s candidates := by
  have hpolicy : ∀ d, policyAt (latchEgress d u) = policyAt (latchEgress d s) := fun d => by
    have hd : Agree (latchEgress d s) (latchEgress d u) := ⟨ha.params, ha.tbl, ha.portCfg⟩
    have hwd : (latchEgress d u).w = (latchEgress d s).w := hw d
    rw [policyAt, hwd, hd.validCfg, hd.params, latchEgress_frame, hframe]
    rfl
  induction candidates with
  | nil => rfl
  | cons d rest ih => rw [Machine.actionsOf, hpolicy d, ih]; rfl

/-- `t` comes from `s` and `t'` from `u` with the same event shown and the same TBL and CFG left. -/
def EndAlike (s u t t' : State) : Prop :=
  ∃ e, t.out = s.out ++ [e] ∧ t'.out = u.out ++ [e] ∧ t'.tbl = t.tbl ∧ t'.portCfg = t.portCfg

theorem Agree.fail {s u x y : State} (ha : Agree x y) (code : Code) (tf : Bool) (hx : x.out = s.out)
    (hy : y.out = u.out) : EndAlike s u (endFrame (fail code tf x)) (endFrame (fail code tf y)) :=
  ⟨_, by rw [endFrame_out, fail_out, hx], by rw [endFrame_out, fail_out, hy], ha.tbl, ha.portCfg⟩

theorem Agree.finish {s u x y : State} (ha : Agree x y) (tf : Bool) (actions : List Action) (hx : x.out = s.out)
    (hy : y.out = u.out) : EndAlike s u (endFrame (finish tf actions x)) (endFrame (finish tf actions y)) :=
  ⟨_, by rw [endFrame_out, finish_out, hx], by rw [endFrame_out, finish_out, hy], ha.tbl, ha.portCfg⟩

/-- Two states that agree end a frame alike: which of the four ends it has is decided by what they agree on. -/
theorem Agree.receive {s u t : State} (ha : Agree s u) {inp : Nat} {F : Frame} (h : receive inp F s = .next t) :
    ∃ t', receive inp F u = .next t' ∧ EndAlike s u t t' := by
  obtain ⟨hl, -⟩ := receive_effect h
  have hl' : F.length ≤ u.params.maxFrameBytes := ha.params ▸ hl
  rcases receive_cases (inp := inp) hl with
      ⟨hd, e⟩ | ⟨hdr, hd, ⟨hc, e⟩ | ⟨c, hc, ⟨hu, e⟩ | ⟨hall, acts, hacts, e⟩⟩⟩ <;>
    obtain rfl := next_inj (e.symm.trans h)
  case inl =>
    have haccept : Agree (rxAccept inp F s) (rxAccept inp F u) := ⟨ha.params, ha.tbl, ha.portCfg⟩
    exact ⟨_, receive_malformed hl' (ha.params ▸ hd), haccept.fail .malformed false rfl rfl⟩
  all_goals
    obtain ⟨hlearnt, hfull⟩ := ha.afterLearn inp F hdr
    have hd' : decodeHeader u.params F = some hdr := ha.params ▸ hd
    have hc' := (ha.validCfg inp).trans hc
  case inr.inl =>
    have e' := receive_unknownIngress hl' hd' hc'
    rw [hfull] at e'
    exact ⟨_, e', hlearnt.fail _ _ (by simp) (by simp)⟩
  all_goals
    have hingress : Agree (latchIngress c (Machine.afterLearn inp F hdr s).1)
        (latchIngress c (Machine.afterLearn inp F hdr u).1) := ⟨hlearnt.params, hlearnt.tbl, hlearnt.portCfg⟩
  case inr.inr.inl =>
    have e' := receive_unknownEgress hl' hd' hc' (by simpa only [ha.candidatesOf, ha.validCfg] using hu)
    rw [hfull] at e'
    exact ⟨_, e', hingress.fail _ _ (by simp) (by simp)⟩
  case inr.inr.inr =>
    obtain ⟨acts', hacts', e'⟩ := receive_ok hl' hd' hc' (by simpa only [ha.candidatesOf, ha.validCfg] using hall)
    rw [ha.candidatesOf, hingress.actionsOf (by simp) (by simp), hacts] at hacts'
    obtain rfl := Except.ok.inj hacts'
    rw [hfull] at e'
    exact ⟨_, e', hingress.finish _ _ (by simp) (by simp)⟩

/-- Settles O39: PROCESS is the `receive` of its frame, and both states agree on what that reads. -/
theorem forwardingIgnoresFaultAndPastFrames : Obligations.ForwardingIgnoresFaultAndPastFrames := by
  unfold Obligations.ForwardingIgnoresFaultAndPastFrames
  intro s u t inp len F hparams htbl hcfg h
  obtain ⟨rfl, hr⟩ := execProcess_next h
  have ha : Agree s u := ⟨hparams, htbl, hcfg⟩
  obtain ⟨t', hr', e, hends⟩ := ha.receive hr
  exact ⟨t', e, (exec_process_length inp F u).trans hr', hends⟩

end Sys2Proof.Machine
end

section
/-! The reset state (R37), and what CFG_READ shows of it. -/

namespace Sys2Proof.Machine

theorem readPortCfg_eq_ok {s : State} {p : Nat} {c : PortCfg} (hp : p < s.params.numPorts)
    (hc : s.portCfg[p]? = some c) : readPortCfg p s = .ok (cfgWord c.valid c.kind c.vlan) := by
  simp [readPortCfg, hostReg_portCfg hp, hc]

theorem exec_cfgRead_of_reg {s : State} {p : Nat} {c : PortCfg} (hp : p < s.params.numPorts)
    (hc : s.portCfg[p]? = some c) :
    exec (.cfgRead p) s = .next (s.emit (.cfgRead (cfgWord c.valid c.kind c.vlan))) := by
  simp [exec, execCfgRead, readPortCfg_eq_ok hp hc]

/-- Bit 13 of a PORT_CFG word is its `valid` field (R94). -/
theorem getLsbD_thirteen (word : BitVec 14) : word.getLsbD 13 = wordValid word := by
  have hlt : word.toNat / 8192 < 2 := by have := word.isLt; omega
  rw [BitVec.getLsbD, Nat.testBit_eq_decide_div_mod_eq, wordValid, Nat.mod_eq_of_lt hlt]

theorem resetAt_reg {P : Params} (n : Nat) {p : Nat} (hp : p < P.numPorts) :
    (State.resetAt P n).portCfg[p]? = some (PortCfg.unspecified n p) := by
  simp [State.resetAt, hp]

theorem resetAt_unconfigured (P : Params) (n p : Nat) : validCfg (State.resetAt P n) p = none := by
  cases hc : validCfg (State.resetAt P n) p with
  | none => rfl
  | some c =>
    obtain ⟨hp, hreg, hvalid⟩ := (validCfg_eq_some_iff _ p c).1 hc
    obtain rfl := Option.some.inj ((resetAt_reg n hp).symm.trans hreg)
    cases hvalid

/-- Settles O45: a register's `valid` is 0 after reset, and CFG_READ shows it as bit 13. -/
theorem resetStateIsEmptyAndUnconfigured : Obligations.ResetStateIsEmptyAndUnconfigured := by
  unfold Obligations.ResetStateIsEmptyAndUnconfigured
  intro P n s
  refine ⟨rfl, rfl, rfl, rfl, rfl, rfl, resetAt_unconfigured P n, fun p hp => ?_⟩
  exact ⟨_, exec_cfgRead_of_reg hp (resetAt_reg n hp), by rw [getLsbD_thirteen, wordValid_cfgWord]; rfl⟩

end Sys2Proof.Machine
end

section
/-! The frame classes beyond MAX_FRAME_BYTES (R30, U4). -/

namespace Sys2Proof.Machine

/-- Settles O48: each frame class is the `receive` of its frame, which has no step beyond MAX_FRAME_BYTES. -/
theorem overlongFrameClassesAreRefused : Obligations.OverlongFrameClassesAreRefused := by
  unfold Obligations.OverlongFrameClassesAreRefused
  intro s F inp dm sm pri vid et
  refine ⟨fun h14 hl => ?short, fun het hl => ?untagged, fun h4 hl => ?shortTagged, fun hl => ?tagged⟩
  case short => rw [exec_short h14, receive_overlong hl]
  case untagged => rw [exec_untagged het, receive_overlong (by rwa [frameBytes_untagged_length])]
  case shortTagged => rw [exec_shortTagged h4, receive_overlong (by rwa [frameBytes_shortTagged_length])]
  case tagged => rw [exec_tagged, receive_overlong (by rwa [frameBytes_tagged_length])]

end Sys2Proof.Machine
end

section
/-! The step at the front of the queue (R61, R62), and the tag word as an operation (R52). -/

namespace Sys2Proof.Machine

/-- What a step does when its transaction decodes: the operation runs with that transaction taken off the queue. -/
theorem step_of_decode_ok {s : State} {t : Txn} {rest : List Txn} {i : Instr} (hq : s.pending = t :: rest)
    (hd : decode s.params t = .ok i) : step s = exec i (s.setPending rest) := by
  simp only [step, hq, hd]

/-- Settles O1: taking the transaction is `setPending` of the rest of the queue. -/
theorem stepExecutesDecodedTransaction : Obligations.StepExecutesDecodedTransaction := by
  unfold Obligations.StepExecutesDecodedTransaction
  intro s t rest i hq hd
  exact step_of_decode_ok hq hd

/-- The big-endian bytes of the tag word are the tag (R52, R86). -/
theorem exec_tag (s : State) (vid : VlanId) :
    exec (.tag vid) s = .next (s.emit (.bytes (tagBytes s.params vid.toNat))) := by
  simp only [exec, execTag, bytes32_tagWord]

/-- Settles O10: the row only emits the event, and an event only lengthens the output. -/
theorem tagRowGivesTagBytes : Obligations.TagRowGivesTagBytes := by
  unfold Obligations.TagRowGivesTagBytes
  intro s vid
  exact exec_tag s vid

end Sys2Proof.Machine
end

section
/-! The encoder's image under the decoder (R81, R82, R88): the fields a number is read back from, and the four frame
layouts. -/

namespace Sys2Proof

/-! ### Numeric fields -/

@[simp] theorem require_true (why : Reject) (next : Except Reject Instr) : require true why next = next := rfl

@[simp] theorem fits_toNat {w : Nat} (v : BitVec w) : fits w v.toNat = true := decide_eq_true v.isLt

@[simp] theorem fits_bitCode (b : Bool) : fits 1 (bitCode b) = true := by cases b <;> rfl

@[simp] theorem fits_kindCode (k : Kind) : fits 1 (kindCode k) = true := by cases k <;> rfl

@[simp] theorem fits_zero (w : Nat) : fits w 0 = true := decide_eq_true (Nat.two_pow_pos w)

@[simp] theorem fits_one_one : fits 1 1 = true := rfl

@[simp] theorem decide_bitCode_eq_one (b : Bool) : decide (bitCode b = 1) = b := by cases b <;> rfl

theorem fits_tagWord (P : Params) (vid : VlanId) : fits 32 (tagWord P vid) = true := by
  have htpid := P.tpid.isLt
  have hvid := vid.isLt
  exact decide_eq_true (show P.tpid.toNat * 65536 + vid.toNat < 2 ^ 32 by omega)

/-- The VLAN id is the tag word's low 12 bits (R86). -/
theorem ofNat_tagWord (P : Params) (vid : VlanId) : BitVec.ofNat 12 (tagWord P vid) = vid := by
  apply BitVec.eq_of_toNat_eq
  have hvid := vid.isLt
  simp only [tagWord, BitVec.toNat_ofNat]
  omega

theorem maxFrameBytes_of_legal {P : Params} (h : P.legal = true) : 18 ≤ P.maxFrameBytes := by
  simp only [Params.legal, Bool.and_eq_true, decide_eq_true_eq] at h
  obtain ⟨⟨-, hmax⟩, -⟩ := h
  exact hmax

/-! ### The frame classes of R88 -/

section
variable {P : Params} {F : Frame} (inp : Nat)

theorem decodeFrame_short (h : F.length < 14) : decodeFrame P inp F = .short inp F := if_pos h

theorem decodeFrame_untagged (h14 : 14 ≤ F.length) (ht : be16 (byteAt F 12) (byteAt F 13) ≠ P.tpid) :
    decodeFrame P inp F =
      .untagged inp (mac48 F 0) (mac48 F 6) (be16 (byteAt F 12) (byteAt F 13)) (F.drop 14) := by
  rw [decodeFrame, if_neg (by omega), if_neg ht]

theorem decodeFrame_shortTagged (h14 : 14 ≤ F.length) (ht : be16 (byteAt F 12) (byteAt F 13) = P.tpid)
    (h18 : F.length < 18) : decodeFrame P inp F = .shortTagged inp (mac48 F 0) (mac48 F 6) (F.drop 14) := by
  rw [decodeFrame, if_neg (by omega), if_pos ht, if_pos h18]

theorem decodeFrame_tagged (h18 : 18 ≤ F.length) (ht : be16 (byteAt F 12) (byteAt F 13) = P.tpid) :
    decodeFrame P inp F = .tagged inp (mac48 F 0) (mac48 F 6) (tciPri (be16 (byteAt F 14) (byteAt F 15)))
      (tciVid (be16 (byteAt F 14) (byteAt F 15))) (be16 (byteAt F 16) (byteAt F 17)) (F.drop 18) := by
  rw [decodeFrame, if_neg (by omega), if_pos ht, if_neg (by omega)]

end

/-- The fields at offsets 0, 6 and 12 of a frame laid out as R81 and R82 have it, and what follows them. -/
theorem layout_fields {F rest : Frame} {dm sm : Mac} {x : Half}
    (hF : F = macBytes dm ++ macBytes sm ++ bytes16 x ++ rest) :
    mac48 F 0 = dm ∧ mac48 F 6 = sm ∧ be16 (byteAt F 12) (byteAt F 13) = x ∧ F.drop 14 = rest := by
  subst hF
  refine ⟨mac48_of_macBytes fun i hi => ?_, mac48_of_macBytes fun i hi => ?_, be16_bytes16 x, rfl⟩
  all_goals interval_cases i <;> rfl

/-- The fields at offsets 14 and 16 of a tagged frame (R82), and its payload. -/
theorem tagged_layout_fields {F payload : Frame} {dm sm : Mac} {x tci et : Half}
    (hF : F = macBytes dm ++ macBytes sm ++ bytes16 x ++ (bytes16 tci ++ bytes16 et ++ payload)) :
    be16 (byteAt F 14) (byteAt F 15) = tci ∧ be16 (byteAt F 16) (byteAt F 17) = et ∧ F.drop 18 = payload := by
  subst hF
  exact ⟨be16_bytes16 tci, be16_bytes16 et, rfl⟩

/-- A frame-class operation is the class of its own bytes, and its fields are its port and their number. -/
theorem decodeFrame_frameBytes {P : Params} {i : Instr} (hP : P.legal = true) (hl : i.line = .rx)
    (hwf : i.wf P = true) : ∃ inp, encodeFields P i = [inp, (frameBytes P i).length] ∧ portOk P inp = true ∧
      (frameBytes P i).length ≤ P.maxFrameBytes ∧ decodeFrame P inp (frameBytes P i) = i := by
  have hmax := maxFrameBytes_of_legal hP
  cases i with
  | short inp F =>
    simp only [Instr.wf, Bool.and_eq_true, decide_eq_true_eq] at hwf
    obtain ⟨hp, h14⟩ := hwf
    exact ⟨inp, rfl, hp, show F.length ≤ _ by omega, decodeFrame_short inp h14⟩
  | untagged inp dm sm et payload =>
    simp only [Instr.wf, Bool.and_eq_true, decide_eq_true_eq] at hwf
    obtain ⟨⟨hp, het⟩, hlen⟩ := hwf
    have hlength := Machine.frameBytes_untagged_length P inp dm sm et payload
    obtain ⟨hdm, hsm, hx, hrest⟩ := layout_fields (F := frameBytes P (.untagged inp dm sm et payload)) rfl
    refine ⟨inp, by rw [hlength]; rfl, hp, by omega, ?_⟩
    rw [decodeFrame_untagged inp (by omega) (by rwa [hx]), hdm, hsm, hx, hrest]
  | shortTagged inp dm sm rest =>
    simp only [Instr.wf, Bool.and_eq_true, decide_eq_true_eq] at hwf
    obtain ⟨hp, h4⟩ := hwf
    have hlength := Machine.frameBytes_shortTagged_length P inp dm sm rest
    obtain ⟨hdm, hsm, hx, hrest⟩ := layout_fields (F := frameBytes P (.shortTagged inp dm sm rest)) rfl
    refine ⟨inp, by rw [hlength]; rfl, hp, by omega, ?_⟩
    rw [decodeFrame_shortTagged inp (by omega) hx (by omega), hdm, hsm, hrest]
  | tagged inp dm sm pri vid et payload =>
    simp only [Instr.wf, Bool.and_eq_true, decide_eq_true_eq] at hwf
    obtain ⟨hp, hlen⟩ := hwf
    have hlength := Machine.frameBytes_tagged_length P inp dm sm pri vid et payload
    have hF : frameBytes P (.tagged inp dm sm pri vid et payload) = macBytes dm ++ macBytes sm ++ bytes16 P.tpid ++
      (bytes16 (tciOf pri vid) ++ bytes16 et ++ payload) := rfl
    obtain ⟨hdm, hsm, hx, -⟩ := layout_fields hF
    obtain ⟨htci, het, hpayload⟩ := tagged_layout_fields hF
    refine ⟨inp, by rw [hlength]; rfl, hp, by omega, ?_⟩
    rw [decodeFrame_tagged inp (by omega) hx, hdm, hsm, htci, tciPri_tciOf, tciVid_tciOf, het, hpayload]
  | _ => cases hl

theorem encodeBytes_of_rx {i : Instr} (P : Params) (hl : i.line = .rx) : encodeBytes P i = frameBytes P i := by
  cases i with
  | short | untagged | shortTagged | tagged => rfl
  | _ => cases hl

theorem decode_encode_rx {P : Params} {i : Instr} (hP : P.legal = true) (hl : i.line = .rx)
    (hwf : i.wf P = true) : decode P (encode P i) = .ok i := by
  obtain ⟨inp, hfields, hp, hlen, hclass⟩ := decodeFrame_frameBytes hP hl hwf
  rw [encode, hl, hfields, encodeBytes_of_rx P hl, decode_rx hp hlen, hclass]

end Sys2Proof
end

section
/-! Decoding undoes encoding (R86, R91 to R94, R200), line by line. -/

namespace Sys2Proof

theorem decode_encode_policyRow {P : Params} {i : Instr} (hl : i.line = .policyRow) (hwf : i.wf P = true) :
    decode P (encode P i) = .ok i := by
  cases i with
  | aaFwd d vlan F | atTag d sv F | taStrip d vlan F | ttFwd d F =>
    simp [encode, decode, decodePolicyRow, encodeFields, encodeBytes, Instr.line, show portOk P d = true from hwf]
  | aaDrop d sv dv F =>
    simp only [Instr.wf, Bool.and_eq_true, decide_eq_true_eq] at hwf
    obtain ⟨hd, hne⟩ := hwf
    simp [encode, decode, decodePolicyRow, encodeFields, encodeBytes, Instr.line, hd, hne, BitVec.toNat_inj]
  | taDrop d dv vlanId F =>
    simp only [Instr.wf, Bool.and_eq_true, decide_eq_true_eq] at hwf
    obtain ⟨hd, hne⟩ := hwf
    cases vlanId with
    | none => simp [encode, decode, decodePolicyRow, encodeFields, encodeBytes, vlanIdFields, Instr.line, hd]
    | some vid =>
      have hne' : dv ≠ vid := fun h => hne (congrArg some h.symm)
      simp [encode, decode, decodePolicyRow, encodeFields, encodeBytes, vlanIdFields, Instr.line, hd, hne',
        BitVec.toNat_inj]
  | _ => cases hl

/-- The lengths on the RESULT line cut the actions' bytes apart again (R31). -/
theorem decodeActions_actionFields {P : Params} {actions : List Action} (h : actions.all (Action.wf P) = true) :
    decodeActions P (actionFields actions) (actionBytes actions) = .ok actions := by
  induction actions with
  | nil => rfl
  | cons a rest ih =>
    obtain ⟨port, bytes, length⟩ := a
    simp only [List.all_cons, Bool.and_eq_true, Action.wf, decide_eq_true_eq] at h
    obtain ⟨⟨hport, rfl⟩, hrest⟩ := h
    simp [actionFields, actionBytes, decodeActions, hport, ih hrest]

theorem decode_encode_result {P : Params} {i : Instr} (hl : i.line = .result) (hwf : i.wf P = true) :
    decode P (encode P i) = .ok i := by
  cases i with
  | ok tf actions =>
    simp [encode, decode, decodeResult, encodeFields, encodeBytes, Instr.line, codeBits, decodeActions_actionFields hwf]
  | malformed => rfl
  | unknownIngress tf | unknownEgress tf => cases tf <;> rfl
  | _ => cases hl

theorem decode_encode_dest {P : Params} {i : Instr} (hl : i.line = .dest) (hwf : i.wf P = true) :
    decode P (encode P i) = .ok i := by
  cases i with
  | bcast inp => simp [encode, decode, encodeFields, encodeBytes, Instr.line, show portOk P inp = true from hwf]
  | known dm inp | unknown dm inp =>
    simp only [Instr.wf, Bool.and_eq_true, decide_eq_true_eq] at hwf
    obtain ⟨hp, hunicast⟩ := hwf
    simp [encode, decode, encodeFields, encodeBytes, Instr.line, hp, hunicast]
  | _ => cases hl

/-- Settles O3: table by table where a line carries several operations, and by its own operands where it carries one. -/
theorem decodeOfEncodeIsIdentity : Obligations.DecodeOfEncodeIsIdentity := by
  unfold Obligations.DecodeOfEncodeIsIdentity
  intro P i hP hwf
  cases i with
  | short | untagged | shortTagged | tagged => exact decode_encode_rx hP rfl hwf
  | aaFwd | aaDrop | atTag | taStrip | taDrop | ttFwd => exact decode_encode_policyRow rfl hwf
  | ok | malformed | unknownIngress | unknownEgress => exact decode_encode_result rfl hwf
  | bcast | known | unknown => exact decode_encode_dest rfl hwf
  | encodeTag | insertTag | stripTag | cfgRead | faultRead | reset | tblFull => rfl
  | tag vid => simp [encode, decode, encodeFields, encodeBytes, Instr.line, fits_tagWord, ofNat_tagWord]
  | lookup | cfgWrite | portCfg => simp [encode, decode, encodeFields, encodeBytes, Instr.line]
  | decode F len =>
    simp [encode, decode, encodeFields, encodeBytes, Instr.line, show lenOk P len = true from hwf]
  | learn m inp | candidates m inp =>
    simp [encode, decode, encodeFields, encodeBytes, Instr.line, show portOk P inp = true from hwf]
  | process inp F len =>
    obtain ⟨hp, hlen⟩ := Bool.and_eq_true_iff.1 hwf
    simp [encode, decode, encodeFields, encodeBytes, Instr.line, hp, hlen]
  | policy sk sv vlanId F len d =>
    obtain ⟨hlen, hd⟩ := Bool.and_eq_true_iff.1 hwf
    cases vlanId <;> simp [encode, decode, encodeFields, encodeBytes, vlanIdFields, Instr.line, hlen, hd]

/-- Settles O7: each word is what the encoder writes for its row, so decoding undoes it. -/
theorem tableWordsDecodeToTheirRows : Obligations.TableWordsDecodeToTheirRows := by
  unfold Obligations.TableWordsDecodeToTheirRows
  have hdecode := decodeOfEncodeIsIdentity Params.initial
  exact ⟨hdecode (.tag 10#12) rfl rfl, hdecode (.bcast 1) rfl rfl, hdecode (.atTag 2 10#12 []) rfl rfl,
    hdecode (.cfgWrite 0 true .access 10#12) rfl rfl, hdecode (.unknownIngress true) rfl rfl,
    hdecode (.untagged 0 0x02000000000b#48 0x02000000000a#48 0x0800#16 []) rfl rfl⟩

end Sys2Proof
end

section
/-! An RX transaction and the frame class it decodes to (R81, R82, R85, R88, R89): the fields by offset, no byte lost,
and the class's effect that of PROCESS. -/

namespace Sys2Proof.Machine

theorem tciPri_halfAt (F : Frame) (a : Nat) :
    (tciPri (be16 (byteAt F a) (byteAt F (a + 1)))).toNat = halfAt F a / 4096 := by
  have h0 := (byteAt F a).isLt
  have h1 := (byteAt F (a + 1)).isLt
  simp only [tciPri, BitVec.toNat_ofNat, be16_toNat, halfAt]
  omega

/-- Settles O5: the four classes are the branches of `decodeFrame`, their fields read off by offset. -/
theorem rxFrameClassIsDecidedByBytes : Obligations.RxFrameClassIsDecidedByBytes := by
  unfold Obligations.RxFrameClassIsDecidedByBytes
  intro P inp F hp hl r
  have hr : r = .ok (decodeFrame P inp F) := decode_rx (decide_eq_true hp) hl
  have htpid := be16_eq_iff F 12 P.tpid
  refine ⟨fun h14 => ?short, fun h14 ht => ?untagged, fun h14 ht h18 => ?shortTagged, fun h18 ht => ?tagged⟩
  case short => rw [hr, decodeFrame_short inp h14]
  case untagged =>
    exact ⟨_, _, _, hr.trans (congrArg _ (decodeFrame_untagged inp h14 (htpid.not.2 ht))),
      mac48_macAt F 0, mac48_macAt F 6, be16_toNat _ _⟩
  case shortTagged =>
    exact ⟨_, _, hr.trans (congrArg _ (decodeFrame_shortTagged inp h14 (htpid.2 ht) h18)),
      mac48_macAt F 0, mac48_macAt F 6⟩
  case tagged =>
    exact ⟨_, _, _, _, _, hr.trans (congrArg _ (decodeFrame_tagged inp h18 (htpid.2 ht))),
      mac48_macAt F 0, mac48_macAt F 6, tciPri_halfAt F 14, tciVid_halfAt F 14, be16_toNat _ _⟩

/-- Each class counts its header's bytes and those behind it: all of the frame's. -/
theorem encodeFields_decodeFrame (P : Params) (inp : Nat) (F : Frame) :
    encodeFields P (decodeFrame P inp F) = [inp, F.length] := by
  by_cases h14 : F.length < 14
  · rw [decodeFrame_short inp h14]; rfl
  by_cases ht : be16 (byteAt F 12) (byteAt F 13) = P.tpid
  · by_cases h18 : F.length < 18
    · rw [decodeFrame_shortTagged inp (by omega) ht h18]
      simp [encodeFields]; omega
    · rw [decodeFrame_tagged inp (by omega) ht]
      simp [encodeFields]; omega
  · rw [decodeFrame_untagged inp (by omega) ht]
    simp [encodeFields]; omega

/-- Settles O6: the class a frame decodes to keeps its line, its two fields and its bytes. -/
theorem rxDecodingKeepsEveryByte : Obligations.RxDecodingKeepsEveryByte := by
  unfold Obligations.RxDecodingKeepsEveryByte
  intro P inp len F i h
  obtain ⟨_, hfields, -, rfl⟩ := decode_rxLine h
  obtain ⟨rfl, rfl⟩ : _ ∧ len = F.length := by simpa using hfields
  rw [encode, decodeFrame_line, encodeFields_decodeFrame, encodeBytes_of_rx P (decodeFrame_line ..),
    frameBytes_decodeFrame]

/-- Settles O26: both sides are the `receive` of the frame. -/
theorem frameClassOperationsAreProcess : Obligations.FrameClassOperationsAreProcess := by
  unfold Obligations.FrameClassOperationsAreProcess
  intro s inp F i h
  obtain ⟨_, hfields, -, rfl⟩ := decode_rxLine h
  obtain rfl := (List.cons.inj hfields).1
  rw [exec_decodeFrame, exec_process_length]

end Sys2Proof.Machine
end

section
/-! The destination rows (R91, R151). -/

namespace Sys2Proof.Machine

theorem hitList_eq (P : Params) (h inp : Nat) :
    hitList P h inp = if h = inp ∧ P.samePortHit = .drop then [] else [h] := by
  rcases hitList_cases P h inp with ⟨e, hne | hreflect⟩ | ⟨e, hsame, hdrop⟩
  · rw [e, if_neg fun hc => hne hc.1]
  · rw [e, if_neg (by simp [hreflect])]
  · rw [e, if_pos ⟨hsame, hdrop⟩]

theorem exec_candidates (s : State) (dm : Mac) (inp : Nat) :
    exec (.candidates dm inp) s = .next (s.emit (.ports (candidateList s dm inp))) := rfl

theorem exec_bcast (s : State) (inp : Nat) : exec (.bcast inp) s = .next (s.emit (.ports (flood s.params inp))) := rfl

theorem candidateList_bcast (s : State) (inp : Nat) : candidateList s bcastMac inp = flood s.params inp := if_pos rfl

section
variable {s : State} {dm : Mac} (hu : dm ≠ bcastMac) (inp : Nat)
include hu

theorem exec_known_of_lookup {h : Nat} (hl : Tbl.lookup s.tbl dm = some h) :
    exec (.known dm inp) s = .next (s.emit (.ports (hitList s.params h inp))) := by
  simp [exec, execKnown, hu, hl]

theorem exec_unknown_of_lookup (hl : Tbl.lookup s.tbl dm = none) :
    exec (.unknown dm inp) s = .next (s.emit (.ports (flood s.params inp))) := by
  simp [exec, execUnknown, hu, hl]

theorem candidateList_of_hit {h : Nat} (hl : Tbl.lookup s.tbl dm = some h) :
    candidateList s dm inp = hitList s.params h inp := by simp [candidateList, hu, hl]

theorem candidateList_of_miss (hl : Tbl.lookup s.tbl dm = none) : candidateList s dm inp = flood s.params inp := by
  simp [candidateList, hu, hl]

end

theorem lookup_eq_none_of_unmapped {t : List (Mac × Nat)} {dm : Mac} (h : ∀ p, (dm, p) ∉ t) :
    Tbl.lookup t dm = none := by
  rw [Tbl.lookup_eq_none_iff]
  rintro ⟨m, p⟩ hm rfl
  exact h p hm

/-- Settles O20: row and CANDIDATES both answer the list of the class the lookup decides. -/
theorem destinationRowsAgreeWithCandidates : Obligations.DestinationRowsAgreeWithCandidates := by
  unfold Obligations.DestinationRowsAgreeWithCandidates
  intro s dm inp hw
  refine ⟨⟨flood s.params inp, exec_bcast s inp, ?bcast, flood_ascending _ _, mem_flood _ _⟩,
    fun h hu hm => ?known, fun hu hn => ?unknown⟩
  case bcast => rw [exec_candidates, candidateList_bcast, exec_bcast]
  case known =>
    have hl := (Tbl.lookup_eq_some_iff hw dm h).2 hm
    rw [exec_candidates, candidateList_of_hit hu inp hl, exec_known_of_lookup hu inp hl, ← hitList_eq]
    exact ⟨rfl, rfl⟩
  case unknown =>
    have hl := lookup_eq_none_of_unmapped hn
    rw [exec_candidates, candidateList_of_miss hu inp hl, exec_unknown_of_lookup hu inp hl, exec_bcast]
    exact ⟨⟨_, rfl⟩, rfl, rfl⟩

end Sys2Proof.Machine
end

section
/-! The PORT_CFG word (R94, R55). -/

namespace Sys2Proof.Machine

/-- Bit 12 of a PORT_CFG word is its `kind` field (R93, R94). -/
theorem kind_of_getLsbD_twelve (word : BitVec 14) :
    (if word.getLsbD 12 then Kind.trunk else Kind.access) = wordKind word := by
  rw [BitVec.getLsbD, Nat.testBit_eq_decide_div_mod_eq, wordKind]
  rcases Nat.mod_two_eq_zero_or_one (word.toNat / 4096) with h | h <;> simp [h, kindOf]

/-- Settles O42: PORT_CFG and CFG_WRITE write the same register value, whose fields are the word's bits. -/
theorem portCfgWordIsValidKindVlan : Obligations.PortCfgWordIsValidKindVlan := by
  unfold Obligations.PortCfgWordIsValidKindVlan
  intro s p word hp
  rw [getLsbD_thirteen, kind_of_getLsbD_twelve]
  exact ⟨wordVlan word, by simp only [wordVlan, BitVec.toNat_ofNat]; omega, writePortCfg_lt hp _, rfl⟩

end Sys2Proof.Machine
end

section
/-! Rows their operands, TBL or the queue do not select (log entry 8). -/

namespace Sys2Proof.Machine

theorem nextRx_eq_none {s : State} (h : ∀ p G rest, ¬ s.receivesNext p G rest) : nextRx s = none := by
  cases hn : nextRx s with
  | none => rfl
  | some x =>
    obtain ⟨p, G, rest⟩ := x
    obtain ⟨hq, hp, hl⟩ := nextRx_some hn
    exact absurd ⟨hq, of_decide_eq_true hp, hl⟩ (h p G rest)

theorem exec_resultLine_refused {s : State} (h : ∀ p G rest, ¬ s.receivesNext p G rest) {i : Instr}
    (hl : i.line ∈ [.result, .tblFull]) : exec i s = .refused .rowNotSelected := by
  obtain ⟨row, hrow⟩ := exec_resultLine hl s
  rw [hrow, reporting, nextRx_eq_none h]

/-! What each RESULT row says of the PROCESS it reports (R200 to R204). -/

theorem exec_ok (tf : Bool) (actions : List Action) (s : State) : exec (.ok tf actions) s =
    reporting (fun r a => decide (r = { code := .ok, tblFull := tf }) && decide (a = actions)) s := rfl

theorem exec_malformed (s : State) : exec .malformed s =
    reporting (fun r _ => decide (r = { code := .malformed, tblFull := false })) s := rfl

theorem exec_unknownIngress (tf : Bool) (s : State) : exec (.unknownIngress tf) s =
    reporting (fun r _ => decide (r = { code := .unknownIngress, tblFull := tf })) s := rfl

theorem exec_unknownEgress (tf : Bool) (s : State) : exec (.unknownEgress tf) s =
    reporting (fun r _ => decide (r = { code := .unknownEgress, tblFull := tf })) s := rfl

theorem exec_tblFull (s : State) : exec .tblFull s = reporting (fun r _ => r.tblFull) s := rfl

/-- A RESULT row is refused where the next frame's PROCESS does not end as the row says. -/
theorem exec_refused_of_row {i : Instr} {row : Result → List Action → Bool} {inp : Nat} {F : Frame} {rest : List Txn}
    {s t : State} {r : Result} {actions : List Action} (he : exec i s = reporting row s)
    (hn : nextRx s = some (inp, F, rest)) (h : receive inp F (s.setPending rest) = .next t)
    (ho : t.out = s.out ++ [.frame r actions]) (hrow : row r actions = false) :
    exec i s = .refused .rowNotSelected := by
  rw [he, reporting_of_receive hn h ho, hrow]
  rfl

theorem exec_known_refused {s : State} {dm : Mac} (inp : Nat)
    (h : dm = bcastMac ∨ Tbl.lookup s.tbl dm = none) : exec (.known dm inp) s = .refused .rowNotSelected := by
  by_cases hb : dm = bcastMac
  · exact if_pos hb
  · simp [exec, execKnown, hb, h.resolve_left hb]

theorem exec_unknown_refused {s : State} {dm : Mac} (inp : Nat)
    (h : dm = bcastMac ∨ Tbl.lookup s.tbl dm ≠ none) : exec (.unknown dm inp) s = .refused .rowNotSelected := by
  by_cases hb : dm = bcastMac
  · exact if_pos hb
  · obtain ⟨q, hq⟩ := Option.ne_none_iff_exists'.1 (h.resolve_left hb)
    simp [exec, execUnknown, hb, hq]

/-- Settles O25: each row is refused by the condition it checks; a RESULT row, by how the next frame's PROCESS ends. -/
theorem unselectedRowsAreRefused : Obligations.UnselectedRowsAreRefused := by
  unfold Obligations.UnselectedRowsAreRefused
  intro s d inp sk v vlanId dm sm F
  refine ⟨fun h14 => if_neg (by omega), if_pos rfl, fun h4 => if_neg (by omega), if_pos rfl, if_pos rfl,
    exec_known_refused inp (.inl rfl), exec_unknown_refused inp (.inl rfl),
    fun hn => exec_known_refused inp (.inr (lookup_eq_none_of_unmapped hn)), ?mapped, ?policy,
    fun hn i hl => exec_resultLine_refused hn hl, ?results⟩
  case mapped =>
    rintro ⟨h, hm⟩
    exact exec_unknown_refused inp (.inr fun hl => (Tbl.lookup_eq_none_iff _ _).1 hl _ hm rfl)
  case policy =>
    intro hc
    simp [exec, execPolicy, hc]
  case results =>
    rintro p G rest t r actions ⟨hq, hp, hl⟩ hrun hout
    have hn := nextRx_cons hq (decide_eq_true hp) hl
    have hr : receive p G (s.setPending rest) = .next t := (exec_process_length p G _).symm.trans hrun
    exact ⟨fun hne => exec_refused_of_row (exec_malformed s) hn hr hout (decide_eq_false hne),
      fun hf => exec_refused_of_row (exec_tblFull s) hn hr hout hf,
      fun tf => ⟨fun hne => exec_refused_of_row (exec_unknownIngress tf s) hn hr hout (decide_eq_false hne),
        fun hne => exec_refused_of_row (exec_unknownEgress tf s) hn hr hout (decide_eq_false hne),
        fun acts hne => exec_refused_of_row (exec_ok tf acts s) hn hr hout
          (Bool.and_eq_false_iff.2 (hne.imp decide_eq_false decide_eq_false))⟩⟩

end Sys2Proof.Machine
end

section
/-! The codec's operations on frames (R110 to R115): what each answers or refuses, the bytes of a frame with a tag put
in and with one taken out, by offset, and the two round trips. -/

namespace Sys2Proof.Machine

/-! ### What the operations answer -/

theorem exec_decode_of_malformed {s : State} {F : Frame} (h : isMalformed s.params F) :
    exec (.decode F F.length) s = .next (s.emit (.decoded none)) := by
  simp only [exec, execDecode, if_true, (isMalformed_iff _ _).1 h]

theorem exec_decode_of_header {s : State} {F : Frame} {h : Header} (hh : hasHeader s.params F h) :
    exec (.decode F F.length) s = .next ((latchHeader h s).emit (.decoded (some h))) := by
  simp only [exec, execDecode, if_true, (hasHeader_iff _ _ _).1 hh]

/-- Settles O8: `decodeHeader` is none exactly on the malformed frames, and else the header the bytes have. -/
theorem decodeReadsHeaderFields : Obligations.DecodeReadsHeaderFields := by
  unfold Obligations.DecodeReadsHeaderFields
  intro s F
  refine ⟨exec_decode_of_malformed, fun hn => ?_⟩
  obtain ⟨h, hd⟩ := Option.ne_none_iff_exists'.1 (mt (isMalformed_iff _ _).2 hn)
  have hh := (hasHeader_iff _ _ _).2 hd
  exact ⟨h, hh, exec_decode_of_header hh⟩

/-- Settles O9: the function's bytes are the tag's (R86), and an event only lengthens the output. -/
theorem encodeTagGivesTagBytes : Obligations.EncodeTagGivesTagBytes := by
  unfold Obligations.EncodeTagGivesTagBytes
  intro s v
  rw [← encodeTag_tagBytes]
  rfl

/-- The frame with the tag of `v` put in at offset 12 (R112). -/
def withTag (P : Params) (F : Frame) (v : Nat) : Frame := F.take 12 ++ tagBytes P v ++ F.drop 12

/-- The frame with its bytes 12 to 15 taken out (R113). -/
def withoutTag (F : Frame) : Frame := F.take 12 ++ F.drop 16

theorem exec_insertTag {F : Frame} (s : State) (v : Nat) (h : 12 ≤ F.length) :
    exec (.insertTag F v) s = .next (s.emit (.bytes (withTag s.params F v))) := by
  simp only [exec, execInsertTag, insertTag_ok v h, returnBytes, withTag]

theorem exec_insertTag_short {F : Frame} (s : State) (v : Nat) (h : F.length < 12) :
    exec (.insertTag F v) s = .refused .insertShort := by
  simp only [exec, execInsertTag, insertTag, if_neg (Nat.not_le.2 h), returnBytes]

theorem exec_stripTag {s : State} {F : Frame} (h : 18 ≤ F.length ∧ halfAt F 12 = s.params.tpid.toNat) :
    exec (.stripTag F) s = .next (s.emit (.bytes (withoutTag F))) := by
  simp only [exec, execStripTag, stripTag_ok ((isTagged_iff _ _).2 h), returnBytes, withoutTag]

theorem exec_stripTag_untagged {s : State} {F : Frame}
    (h : ¬ (18 ≤ F.length ∧ halfAt F 12 = s.params.tpid.toNat)) :
    exec (.stripTag F) s = .refused .stripUntagged := by
  simp only [exec, execStripTag, stripTag, if_neg (mt (isTagged_iff _ _).1 h), returnBytes]

/-! ### Bytes by offset -/

theorem byteAt_congr {F G : Frame} {i j : Nat} (h : F[i]? = G[j]?) : byteAt F i = byteAt G j := by
  simp only [byteAt, List.getD_eq_getElem?_getD, h]

theorem halfAt_tagBytes_tpid (P : Params) (v : Nat) : halfAt (tagBytes P v) 0 = P.tpid.toNat := by
  have := P.tpid.isLt
  simp only [halfAt, byteAt, tagBytes, List.getD_cons_zero, List.getD_cons_succ, BitVec.toNat_ofNat]
  omega

theorem halfAt_tagBytes_tci (P : Params) (v : Nat) : halfAt (tagBytes P v) 2 = v % 4096 := by
  simp only [halfAt, byteAt, tagBytes, List.getD_cons_zero, List.getD_cons_succ, BitVec.toNat_ofNat]
  omega

section
variable {F : Frame} (h12 : 12 ≤ F.length)
include h12

theorem withTag_length (P : Params) (v : Nat) : (withTag P F v).length = F.length + 4 := by
  simp only [withTag, List.length_append, List.length_take, List.length_drop, tagBytes_length]
  omega

theorem getElem?_withTag_before (P : Params) (v : Nat) {i : Nat} (hi : i < 12) : (withTag P F v)[i]? = F[i]? := by
  have htake := List.length_take_of_le h12
  rw [withTag, List.append_assoc, List.getElem?_append_left (by omega), List.getElem?_take_of_lt hi]

theorem withTag_drop_twelve (P : Params) (v : Nat) : (withTag P F v).drop 12 = tagBytes P v ++ F.drop 12 := by
  rw [withTag, List.append_assoc, List.drop_left' (List.length_take_of_le h12)]

theorem getElem?_withTag_after (P : Params) (v : Nat) {i : Nat} (hi : 12 ≤ i) : (withTag P F v)[i + 4]? = F[i]? := by
  obtain ⟨j, rfl⟩ := Nat.exists_eq_add_of_le hi
  calc (withTag P F v)[12 + j + 4]? = ((withTag P F v).drop 12)[j + 4]? := by
        rw [List.getElem?_drop, Nat.add_assoc]
    _ = (F.drop 12)[j]? := by rw [withTag_drop_twelve h12]; rfl
    _ = F[12 + j]? := List.getElem?_drop

theorem getElem?_withTag_tag (P : Params) (v : Nat) {j : Nat} (hj : j < 4) :
    (withTag P F v)[12 + j]? = (tagBytes P v)[j]? := by
  rw [← List.getElem?_drop, withTag_drop_twelve h12, List.getElem?_append_left hj]

theorem byteAt_withTag_before (P : Params) (v : Nat) {i : Nat} (hi : i < 12) :
    byteAt (withTag P F v) i = byteAt F i := byteAt_congr (getElem?_withTag_before h12 P v hi)

theorem halfAt_withTag_twelve (P : Params) (v : Nat) : halfAt (withTag P F v) 12 = P.tpid.toNat := by
  rw [← halfAt_tagBytes_tpid P v, halfAt, halfAt, byteAt_congr (getElem?_withTag_tag h12 P v (j := 0) (by decide)),
    byteAt_congr (getElem?_withTag_tag h12 P v (j := 1) (by decide))]

theorem halfAt_withTag_fourteen (P : Params) (v : Nat) : halfAt (withTag P F v) 14 = v % 4096 := by
  rw [← halfAt_tagBytes_tci P v, halfAt, halfAt, byteAt_congr (getElem?_withTag_tag h12 P v (j := 2) (by decide)),
    byteAt_congr (getElem?_withTag_tag h12 P v (j := 3) (by decide))]

theorem halfAt_withTag_sixteen (P : Params) (v : Nat) : halfAt (withTag P F v) 16 = halfAt F 12 := by
  rw [halfAt, halfAt, byteAt_congr (getElem?_withTag_after h12 P v (i := 12) (by decide)),
    byteAt_congr (getElem?_withTag_after h12 P v (i := 13) (by decide))]

theorem macAt_withTag (P : Params) (v : Nat) {a : Nat} (ha : a ≤ 6) : macAt (withTag P F v) a = macAt F a := by
  simp (disch := omega) only [macAt, byteAt_withTag_before h12]

theorem getElem?_withoutTag_before {i : Nat} (hi : i < 12) : (withoutTag F)[i]? = F[i]? := by
  have htake := List.length_take_of_le h12
  rw [withoutTag, List.getElem?_append_left (by omega), List.getElem?_take_of_lt hi]

theorem getElem?_withoutTag_after {i : Nat} (hi : 12 ≤ i) : (withoutTag F)[i]? = F[i + 4]? := by
  have htake := List.length_take_of_le h12
  rw [withoutTag, List.getElem?_append_right (by omega), htake, List.getElem?_drop,
    show 16 + (i - 12) = i + 4 by omega]

/-- R114: a tag put in and taken out again. -/
theorem withoutTag_withTag (P : Params) (v : Nat) : withoutTag (withTag P F v) = F := by
  refine List.ext_getElem? fun i => ?_
  have hlen := withTag_length h12 P v
  by_cases hi : i < 12
  · rw [getElem?_withoutTag_before (by omega) hi, getElem?_withTag_before h12 P v hi]
  · rw [getElem?_withoutTag_after (by omega) (by omega), getElem?_withTag_after h12 P v (by omega)]

end

theorem withoutTag_length {F : Frame} (h16 : 16 ≤ F.length) : (withoutTag F).length + 4 = F.length := by
  simp only [withoutTag, List.length_append, List.length_take, List.length_drop]
  omega

/-- Settles O11: the offsets of `withTag`. -/
theorem insertTagMovesBytesByFour : Obligations.InsertTagMovesBytesByFour := by
  unfold Obligations.InsertTagMovesBytesByFour
  intro s F v
  refine ⟨fun h12 => ⟨_, exec_insertTag s v h12, withTag_length h12 _ v, fun i => getElem?_withTag_before h12 _ v,
    ?tag, fun i hi => ?after⟩, exec_insertTag_short s v⟩
  case tag => rw [withTag_drop_twelve h12, List.take_left' (tagBytes_length _ v)]
  case after =>
    obtain ⟨j, rfl⟩ := Nat.exists_eq_add_of_le' (show 4 ≤ i by omega)
    exact getElem?_withTag_after h12 _ v (by omega)

/-- Settles O12: the offsets of `withoutTag`. -/
theorem stripTagMovesBytesByFour : Obligations.StripTagMovesBytesByFour := by
  unfold Obligations.StripTagMovesBytesByFour
  intro s F
  refine ⟨fun ht => ?_, exec_stripTag_untagged⟩
  have h18 : 18 ≤ F.length := ht.1
  exact ⟨_, exec_stripTag ht, withoutTag_length (by omega), fun i => getElem?_withoutTag_before (by omega),
    fun i => getElem?_withoutTag_after (by omega)⟩

/-! ### The round trips -/

/-- The header of a frame with a tag put in: the tag's VLAN id over the frame's own addresses and field at 12 (R114). -/
theorem hasHeader_withTag {F : Frame} (P : Params) (v : VlanId) (h14 : 14 ≤ F.length) :
    hasHeader P (withTag P F v.toNat) ⟨mac48 F 0, mac48 F 6, be16 (byteAt F 12) (byteAt F 13), some v⟩ := by
  have h12 : 12 ≤ F.length := by omega
  have hlen := withTag_length h12 P v.toNat
  have hv := v.isLt
  refine ⟨by omega, ?dm, ?sm, .inr ⟨halfAt_withTag_twelve h12 P _, by omega, ?et, v, rfl, ?vid⟩⟩
  case dm => rw [macAt_withTag h12 P _ (by decide), mac48_macAt]
  case sm => rw [macAt_withTag h12 P _ (by decide), mac48_macAt]
  case et => rw [halfAt_withTag_sixteen h12, be16_toNat, halfAt]
  case vid =>
    rw [halfAt_withTag_fourteen h12]
    omega

/-- Settles O13: the inserted tag makes a frame of 14 bytes TAGGED, and one of 12 or 13 bytes malformed. -/
theorem tagRoundTrip : Obligations.TagRoundTrip := by
  unfold Obligations.TagRoundTrip
  intro s F v
  refine ⟨fun h14 => ?wellFormed, fun h12 h14 => ?malformed, exec_insertTag_short s v.toNat⟩
  case wellFormed =>
    have h12 : 12 ≤ F.length := by omega
    have hlen := withTag_length h12 s.params v.toNat
    have hstrip := exec_stripTag (s := s) ⟨by omega, halfAt_withTag_twelve h12 s.params v.toNat⟩
    rw [withoutTag_withTag h12] at hstrip
    exact ⟨_, _, exec_insertTag s _ h12, hstrip, exec_decode_of_header (hasHeader_withTag s.params v h14), rfl,
      mac48_macAt F 0, mac48_macAt F 6, be16_toNat _ _⟩
  case malformed =>
    have hlen := withTag_length h12 s.params v.toNat
    have hshort : (withTag s.params F v.toNat).length < 18 := by omega
    exact ⟨_, exec_insertTag s _ h12, exec_stripTag_untagged fun ht => absurd ht.1 (Nat.not_le.2 hshort),
      exec_decode_of_malformed (.inr ⟨halfAt_withTag_twelve h12 s.params _, hshort⟩)⟩

/-- The tag of a TAGGED frame's VLAN id is the frame's own four tag bytes but for TCI[15:12]. -/
theorem tagBytes_vid {P : Params} {F : Frame} (ht : halfAt F 12 = P.tpid.toNat) :
    tagBytes P (halfAt F 14 % 4096) =
      [byteAt F 12, byteAt F 13, BitVec.ofNat 8 ((byteAt F 14).toNat % 16), byteAt F 15] := by
  have h12 := (byteAt F 12).isLt
  have h13 := (byteAt F 13).isLt
  have h14 := (byteAt F 14).isLt
  have h15 := (byteAt F 15).isLt
  simp only [tagBytes, ← ht, halfAt, Nat.reduceAdd, List.cons.injEq, and_true]
  refine ⟨?_, ?_, ?_, ?_⟩ <;> apply BitVec.eq_of_toNat_eq <;> simp only [BitVec.toNat_ofNat] <;> omega

/-- R115: a tag taken out and its VLAN id put in again is the frame with TCI[15:12] cleared. -/
theorem withTag_withoutTag {P : Params} {F : Frame} (h18 : 18 ≤ F.length) (ht : halfAt F 12 = P.tpid.toNat) :
    withTag P (withoutTag F) (halfAt F 14 % 4096) = F.set 14 (BitVec.ofNat 8 ((byteAt F 14).toNat % 16)) := by
  have hF := bytes_split18 h18
  have hlen := withoutTag_length (F := F) (by omega)
  have htake : (withoutTag F).take 12 = F.take 12 := List.take_left' (List.length_take_of_le (by omega))
  have hdrop : (withoutTag F).drop 12 = F.drop 16 := List.drop_left' (List.length_take_of_le (by omega))
  rw [withTag, htake, hdrop, tagBytes_vid ht]
  conv_rhs => rw [hF]
  rw [show F.take 12 = _ from congrArg (List.take 12) hF, show F.drop 16 = _ from congrArg (List.drop 16) hF]
  rfl

theorem byteAt_set_ne {F : Frame} {i j : Nat} (b : Byte) (h : i ≠ j) : byteAt (F.set i b) j = byteAt F j :=
  byteAt_congr (List.getElem?_set_ne h)

theorem byteAt_set_same {F : Frame} {i : Nat} (b : Byte) (h : i < F.length) : byteAt (F.set i b) i = b := by
  simp [byteAt, h]

theorem set_byteAt (F : Frame) {i : Nat} (h : i < F.length) : F.set i (byteAt F i) = F := by
  simp [byteAt, h]

/-- Settles O14: the two operations set byte 14 to its low four bits, which `halfAt F 14 < 4096` says it has already. -/
theorem stripThenInsertClearsUpperTciBits : Obligations.StripThenInsertClearsUpperTciBits := by
  unfold Obligations.StripThenInsertClearsUpperTciBits
  intro s F h18 ht
  have hlen := withoutTag_length (F := F) (by omega)
  have hinsert := exec_insertTag s (F := withoutTag F) (halfAt F 14 % 4096) (by omega)
  rw [withTag_withoutTag h18 ht] at hinsert
  have h14 := (byteAt F 14).isLt
  have h15 := (byteAt F 15).isLt
  refine ⟨_, _, exec_stripTag ⟨h18, ht⟩, hinsert, List.length_set, fun i hi => List.getElem?_set_ne hi.symm,
    ?tci, fun hz => ?same⟩
  case tci =>
    rw [halfAt, byteAt_set_same _ (by omega), byteAt_set_ne _ (by decide), halfAt, BitVec.toNat_ofNat]
    omega
  case same =>
    have hlow : BitVec.ofNat 8 ((byteAt F 14).toNat % 16) = byteAt F 14 := by
      rw [halfAt] at hz
      rw [Nat.mod_eq_of_lt (by omega), BitVec.ofNat_toNat, BitVec.setWidth_eq]
    rw [hlow, set_byteAt F (by omega)]

end Sys2Proof.Machine
end

section
/-! The MAC table (R130 to R139): LEARN and LOOKUP as operations, and what one frame or one operation does to the
table. -/

namespace Sys2Proof.Machine

/-! ### LEARN and LOOKUP -/

section
variable {s : State} {sm : Mac} (hw : Tbl.wf s.tbl)
include hw

theorem exec_learn_of_canLearn (inp : Nat) (hc : canLearn s sm) :
    exec (.learn sm inp) s = .next ((s.setTbl (Tbl.write s.tbl sm inp)).emit (.learned false)) := by
  rcases (canLearn_iff hw sm).1 hc with hknown | hroom
  · simp only [exec, execLearn, learn_known hknown]
  · simp only [exec, execLearn, learn_room hroom]

theorem exec_learn_of_full (inp : Nat) (hn : ¬ canLearn s sm) :
    exec (.learn sm inp) s = .next ((s.setFault tblFullBit).emit (.learned true)) := by
  obtain ⟨hnew, hroom⟩ : Tbl.lookup s.tbl sm = none ∧ hasRoom s.params s.tbl = false := by
    simpa [canLearn_iff hw] using hn
  simp only [exec, execLearn, learn_full hnew hroom]

/-- R135: LEARN of a pair the table holds only answers. -/
theorem exec_learn_of_stored {inp : Nat} (hm : (sm, inp) ∈ s.tbl) :
    exec (.learn sm inp) s = .next (s.emit (.learned false)) := by
  have hsame : Tbl.write s.tbl sm inp = s.tbl := Tbl.write_same hw ((Tbl.lookup_eq_some_iff hw sm inp).2 hm)
  rw [exec_learn_of_canLearn hw inp (.inl ⟨inp, hm⟩), hsame]
  rfl

end

theorem exec_lookup (s : State) (dm : Mac) :
    exec (.lookup dm) s = .next (s.emit (.looked (Tbl.lookup s.tbl dm))) := rfl

/-- Settles O15: the two arms that write are one `Tbl.write`, and the third arm sets the sticky bit. -/
theorem learnWritesOneEntryOrReportsFull : Obligations.LearnWritesOneEntryOrReportsFull := by
  unfold Obligations.LearnWritesOneEntryOrReportsFull
  intro s sm inp hw
  exact ⟨fun hc => ⟨_, learnEffect_write inp hw hc, exec_learn_of_canLearn hw inp hc⟩, exec_learn_of_full hw inp⟩

/-- Settles O16: in canonical form a lookup finds exactly the pairs listed. -/
theorem lookupReturnsStoredPort : Obligations.LookupReturnsStoredPort := by
  unfold Obligations.LookupReturnsStoredPort
  intro s dm hw
  exact ⟨_, exec_lookup s dm, Tbl.lookup_eq_some_iff hw dm⟩

/-- Settles O17: after the first LEARN the table holds the pair, and LEARN of a stored pair only answers. -/
theorem repeatedLearnLeavesTable : Obligations.RepeatedLearnLeavesTable := by
  unfold Obligations.RepeatedLearnLeavesTable
  intro s sm inp hw hc
  have hstored : (sm, inp) ∈ Tbl.write s.tbl sm inp := by simp [mem_tblWrite hw]
  exact ⟨_, exec_learn_of_canLearn hw inp hc, hstored, exec_learn_of_stored (Tbl.write_wf hw sm inp) hstored⟩

/-- Settles O18: a mapped address can always be learned, and the write replaces its pair. -/
theorem stationMoveOverwritesPort : Obligations.StationMoveOverwritesPort := by
  unfold Obligations.StationMoveOverwritesPort
  intro s sm p q hw hm
  have hmem := mem_tblWrite hw sm q
  have hknown : (Tbl.lookup s.tbl sm).isSome = true := by rw [(Tbl.lookup_eq_some_iff hw sm p).2 hm]; rfl
  have hcount : (Tbl.write s.tbl sm q).length = s.tbl.length := by rw [Tbl.length_write hw, if_pos hknown]
  exact ⟨_, exec_learn_of_canLearn hw q (.inl ⟨p, hm⟩), fun r => (hmem sm r).trans (by rw [if_pos rfl]), rfl,
    fun m r hne => (hmem m r).trans (by rw [if_neg hne]), hcount⟩

/-! ### The table after a frame -/

/-- A well-formed frame ends with the table its own LEARN left, and with the FAULT bits LEARN left or more (R174). -/
theorem receive_keeps_learnt {inp : Nat} {F : Frame} {s t : State} {h : Header}
    (hd : decodeHeader s.params F = some h) (hr : receive inp F s = .next t) :
    t.tbl = (afterLearn inp F h s).1.tbl ∧ ∃ code, t.fault = (afterLearn inp F h s).1.fault ||| faultBit code := by
  obtain ⟨hl, -⟩ := receive_effect hr
  rcases receive_cases (inp := inp) hl with ⟨hnone, -⟩ | ⟨h', hd', hends⟩
  · cases hnone.symm.trans hd
  obtain rfl : h' = h := Option.some.inj (hd'.symm.trans hd)
  rcases hends with ⟨-, e⟩ | ⟨c, -, ⟨-, e⟩ | ⟨-, actions, -, e⟩⟩ <;> obtain rfl := next_inj (e.symm.trans hr)
  · exact ⟨by simp, .unknownIngress, by simp⟩
  · exact ⟨by simp, .unknownEgress, by simp⟩
  · exact ⟨by simp, .ok, by simp [faultBit]⟩

/-- FAULT.TBL_FULL is the second bit of FAULT (R29). -/
theorem neverFull_iff (s : State) : s.neverFull ↔ s.fault.getLsbD 1 = false := by
  unfold State.neverFull tblFullBit
  generalize s.fault = f
  revert f
  decide

/-- With FAULT.TBL_FULL clear after the frame, its LEARN wrote the entry. -/
theorem tbl_of_neverFull {inp : Nat} {F : Frame} {s t : State} {h : Header}
    (hd : decodeHeader s.params F = some h) (hr : receive inp F s = .next t) (hn : t.neverFull) :
    t.tbl = Tbl.write s.tbl h.sm inp := by
  obtain ⟨htbl, code, hfault⟩ := receive_keeps_learnt hd hr
  rw [htbl]
  rcases afterLearn_cases inp F h s with ⟨-, hwrite, -⟩ | ⟨-, -, hset, -⟩
  · exact hwrite
  · rw [neverFull_iff, hfault, hset] at hn
    simp [tblFullBit] at hn

/-- Settles O38: with the bit clear LEARN has written, and the write maps the source address alone anew. -/
theorem neverFullTableIsUnboundedMap : Obligations.NeverFullTableIsUnboundedMap := by
  unfold Obligations.NeverFullTableIsUnboundedMap
  intro s t inp len F h hw he hh hn
  obtain ⟨-, hr⟩ := execProcess_next he
  rw [tbl_of_neverFull ((hasHeader_iff _ _ _).1 hh) hr hn]
  exact mem_tblWrite hw h.sm inp

/-! ### The table along a run -/

/-- A frame leaves the table or writes one entry, on its ingress port. -/
theorem receive_tbl_cases {inp : Nat} {F : Frame} {s t : State} (h : receive inp F s = .next t) :
    t.tbl = s.tbl ∨ ∃ sm, t.tbl = Tbl.write s.tbl sm inp := by
  obtain ⟨-, -, -, -, -, -, -, htbl⟩ := receive_effect h
  exact htbl.imp_right fun ⟨sm, hwrite, _⟩ => ⟨sm, hwrite⟩

/-- Every operation but RESET leaves the table or writes one entry. -/
theorem exec_tbl_cases {i : Instr} {s t : State} (hi : i ≠ .reset) (h : exec i s = .next t) :
    t.tbl = s.tbl ∨ ∃ sm inp, t.tbl = Tbl.write s.tbl sm inp := by
  cases exec_shape h with
  | frame inp F _ h => exact (receive_tbl_cases h).imp_right fun ⟨sm, hwrite⟩ => ⟨sm, inp, hwrite⟩
  | reports inp F rest _ _ h => exact (receive_tbl_cases h).imp_right fun ⟨sm, hwrite⟩ => ⟨sm, inp, hwrite⟩
  | returns e _ _ h => subst h; exact .inl rfl
  | header hdr h => subst h; exact .inl rfl
  | learns sm inp _ h =>
    subst h
    rcases learn_cases sm inp s with ⟨e, -⟩ | ⟨e, -⟩ <;> rw [e]
    · exact .inr ⟨sm, inp, rfl⟩
    · exact .inl rfl
  | config p c _ h => subst h; exact .inl rfl
  | resets hr => exact absurd hr hi

/-- A write forgets no address. -/
theorem Tbl.mapped_write {t : List (Mac × Nat)} (hw : Tbl.wf t) (sm : Mac) (inp : Nat) {m : Mac} {p : Nat}
    (hm : (m, p) ∈ t) : ∃ q, (m, q) ∈ Tbl.write t sm inp := by
  by_cases hsm : m = sm
  · exact ⟨inp, (mem_tblWrite hw sm inp m inp).2 (by rw [if_pos hsm])⟩
  · exact ⟨p, (mem_tblWrite hw sm inp m p).2 (by rwa [if_neg hsm])⟩

/-- Settles O54: a write keeps the count or adds one, and forgets no address. -/
theorem tableCountNeverDecreases : Obligations.TableCountNeverDecreases := by
  unfold Obligations.TableCountNeverDecreases
  intro i s t hw hi h
  rcases exec_tbl_cases hi h with htbl | ⟨sm, inp, htbl⟩ <;> rw [htbl]
  · exact ⟨le_rfl, Nat.le_succ _, fun m p hm => ⟨p, hm⟩⟩
  · have hcount := Tbl.length_write hw sm inp
    refine ⟨?_, ?_, fun m p => Tbl.mapped_write hw sm inp⟩ <;> split at hcount <;> omega

end Sys2Proof.Machine
end

section
/-! CANDIDATES, and POLICY with its six rows, called on their own (R92, R150, R153 to R157). -/

namespace Sys2Proof.Machine

/-- Settles O19: the list is ascending and its members are the candidate set's, class by class. -/
theorem candidatesListsCandidateSet : Obligations.CandidatesListsCandidateSet := by
  unfold Obligations.CandidatesListsCandidateSet
  intro s dm inp hw
  exact ⟨_, exec_candidates s dm inp, candidateList_ascending s dm inp, mem_candidateList hw dm inp⟩

/-! ### The 2x2 table -/

theorem policyOut_access_access (P : Params) (sv dv : VlanId) (vlanId : Option VlanId) (F : Frame) (len : Nat) :
    policyOut P .access sv (.access dv) vlanId F len = .ok (if dv = sv then some (F, len) else none) := rfl

theorem policyOut_access_trunk {F : Frame} (P : Params) (sv : VlanId) (vlanId : Option VlanId) (len : Nat)
    (h12 : 12 ≤ F.length) :
    policyOut P .access sv .trunk vlanId F len = .ok (some (withTag P F sv.toNat, len + 4)) := by
  simp only [policyOut, insertTag_ok sv.toNat h12, withTag]

theorem policyOut_trunk_access_same {P : Params} {F : Frame} (sv dv : VlanId) (len : Nat)
    (ht : isTagged P F = true) :
    policyOut P .trunk sv (.access dv) (some dv) F len = .ok (some (withoutTag F, len - 4)) := by
  simp only [policyOut, if_true, stripTag_ok ht, withoutTag]

theorem policyOut_trunk_access_other {dv : VlanId} {vlanId : Option VlanId} (P : Params) (sv : VlanId) (F : Frame)
    (len : Nat) (h : vlanId ≠ some dv) : policyOut P .trunk sv (.access dv) vlanId F len = .ok none := if_neg h

/-- POLICY toward a configured port is the row the two configurations select. -/
theorem exec_policy_of_holds {s : State} {d : Nat} {cfg : PortConfig} (hd : s.holds d cfg) (sk : Kind) (sv : VlanId)
    (vlanId : Option VlanId) (F : Frame) : exec (.policy sk sv vlanId F F.length d) s =
      returnPolicy d (policyOut s.params sk sv cfg vlanId F F.length) s := by
  obtain ⟨c, hc, rfl⟩ := holds_iff.1 hd
  simp only [exec, execPolicy, if_true, hc]

/-! ### The rows -/

theorem exec_aaFwd (s : State) (d : Nat) (vlan : VlanId) (F : Frame) :
    exec (.aaFwd d vlan F) s = returnPolicy d (policyOut s.params .access vlan (.access vlan) none F F.length) s := rfl

theorem exec_aaDrop {sv dv : VlanId} (s : State) (d : Nat) (F : Frame) (h : dv ≠ sv) :
    exec (.aaDrop d sv dv F) s = returnPolicy d (policyOut s.params .access sv (.access dv) none F F.length) s :=
  if_neg h

theorem exec_atTag (s : State) (d : Nat) (sv : VlanId) (F : Frame) :
    exec (.atTag d sv F) s = returnPolicy d (policyOut s.params .access sv .trunk none F F.length) s := rfl

theorem exec_taStrip (s : State) (d : Nat) (vlan : VlanId) (F : Frame) : exec (.taStrip d vlan F) s =
    returnPolicy d (policyOut s.params .trunk 0#12 (.access vlan) (some vlan) F F.length) s := rfl

theorem exec_taDrop {dv : VlanId} {vlanId : Option VlanId} (s : State) (d : Nat) (F : Frame) (h : vlanId ≠ some dv) :
    exec (.taDrop d dv vlanId F) s =
      returnPolicy d (policyOut s.params .trunk 0#12 (.access dv) vlanId F F.length) s := if_neg h

theorem exec_ttFwd (s : State) (d : Nat) (F : Frame) :
    exec (.ttFwd d F) s = returnPolicy d (policyOut s.params .trunk 0#12 .trunk none F F.length) s := rfl

/-- Settles O21: the row forwards where the two VLANs are one, and the tag operand is not read. -/
theorem accessToAccessForwardsSameVlanOnly : Obligations.AccessToAccessForwardsSameVlanOnly := by
  unfold Obligations.AccessToAccessForwardsSameVlanOnly
  intro s d sv dv vlanId F
  refine ⟨?fwd, fun hne => ?drop, fun hd => ?policy⟩
  case fwd =>
    rw [exec_aaFwd, policyOut_access_access, if_pos rfl]
    rfl
  case drop =>
    rw [exec_aaDrop s d F hne, policyOut_access_access, if_neg hne]
    rfl
  case policy =>
    rw [exec_policy_of_holds hd, policyOut_access_access]
    by_cases hv : dv = sv
    · rw [if_pos hv, if_pos hv]
      rfl
    · rw [if_neg hv, if_neg hv]
      rfl

/-- Settles O22: the row inserts the tag of the ingress VLAN, and the tag operand is not read. -/
theorem accessToTrunkInsertsTag : Obligations.AccessToTrunkInsertsTag := by
  unfold Obligations.AccessToTrunkInsertsTag
  intro s d sv vlanId F h12
  have hrow := policyOut_access_trunk (F := F) s.params sv none F.length h12
  refine ⟨?_, fun hd => ?_⟩
  · rw [exec_atTag, hrow]
    rfl
  · rw [exec_policy_of_holds hd, exec_atTag, hrow, policyOut_access_trunk s.params sv vlanId F.length h12]

/-- Settles O23: the VLAN id operand decides between the two rows, and the ingress VLAN is not read. -/
theorem trunkToAccessStripsMatchingTag : Obligations.TrunkToAccessStripsMatchingTag := by
  unfold Obligations.TrunkToAccessStripsMatchingTag
  intro s d sv dv vlanId F
  refine ⟨fun h18 htpid => ?strip, fun hne => ?drop⟩
  case strip =>
    have ht : isTagged s.params F = true := (isTagged_iff _ _).2 ⟨h18, htpid⟩
    rw [exec_taStrip, policyOut_trunk_access_same _ dv _ ht]
    refine ⟨rfl, fun hd => ?_⟩
    rw [exec_policy_of_holds hd, policyOut_trunk_access_same _ dv _ ht]
  case drop =>
    rw [exec_taDrop s d F hne, policyOut_trunk_access_other _ _ _ _ hne]
    refine ⟨rfl, fun hd => ?_⟩
    rw [exec_policy_of_holds hd, policyOut_trunk_access_other _ _ _ _ hne]

/-- Settles O24: between Trunk ports the policy answers the frame as it is, whatever its other operands. -/
theorem trunkToTrunkForwardsUnchanged : Obligations.TrunkToTrunkForwardsUnchanged := by
  unfold Obligations.TrunkToTrunkForwardsUnchanged
  intro s d sv vlanId F
  refine ⟨rfl, fun hd => ?_⟩
  rw [exec_policy_of_holds hd, exec_ttFwd]
  rfl

end Sys2Proof.Machine
end

section
/-! The egress mapper inside PROCESS (R152 to R160): the actions of a frame are the policy's for its candidates. -/

namespace Sys2Proof.Machine

/-! ### The actions of a frame -/

/-- The actions of a frame are those its candidates' policy rows give, and no others (R153, R172). -/
theorem mem_actions_iff {s : State} {inp : Nat} {F : Frame} {h : Header} {c : PortCfg} {actions : List Action}
    (hd : decodeHeader s.params F = some h)
    (hacts : actionsOf (latchIngress c (afterLearn inp F h s).1) (candidatesOf inp F h s) = .ok actions)
    (a : Action) : a ∈ actions ↔ a.port ∈ candidatesOf inp F h s ∧
      ∃ dst, s.holds a.port dst ∧ forwards s.params c.view dst h.vlanId F a.bytes a.length := by
  rw [mem_actionsOf hacts]
  simp only [policyAt_iff hd]
  constructor
  · rintro ⟨d, hm, rfl, hrow⟩
    exact ⟨hm, hrow⟩
  · rintro ⟨hm, hrow⟩
    exact ⟨_, hm, rfl, hrow⟩

/-- A well-formed frame from a configured port whose candidates are all configured ends with RESULT OK and the actions
of its candidates, in ascending port order (R170, R172). -/
theorem process_forwards {s : State} {inp : Nat} {F : Frame} {h : Header} {src : PortConfig}
    (hl : F.length ≤ s.params.maxFrameBytes) (hh : hasHeader s.params F h) (hsrc : s.holds inp src)
    (hcfg : ∀ d ∈ candidatesOf inp F h s, ∃ dst, s.holds d dst) : ∃ t tf actions,
    exec (.process inp F F.length) s = .next t ∧ t.out = s.out ++ [.frame ⟨.ok, tf⟩ actions] ∧
    (actions.map Action.port).Pairwise (· < ·) ∧
    ∀ a, a ∈ actions ↔ a.port ∈ candidatesOf inp F h s ∧
      ∃ dst, s.holds a.port dst ∧ forwards s.params src dst h.vlanId F a.bytes a.length := by
  obtain ⟨c, hc, rfl⟩ := holds_iff.1 hsrc
  have hd := (hasHeader_iff _ _ _).1 hh
  have hvalid : ∀ d ∈ candidatesOf inp F h s, (validCfg s d).isSome = true := fun d hm => by
    obtain ⟨dst, hdst⟩ := hcfg d hm
    obtain ⟨dc, hdc, -⟩ := holds_iff.1 hdst
    rw [hdc, Option.isSome_some]
  obtain ⟨actions, hacts, hr⟩ := receive_ok hl hd hc hvalid
  exact ⟨_, (afterLearn inp F h s).2, actions, (exec_process_length inp F s).trans hr, by simp,
    actionsOf_ports hacts (candidateList_ascending _ _ _), mem_actions_iff hd hacts⟩

/-- Whatever way a frame ends, an action of it is the policy's, from the ingress port's configuration to its own. -/
theorem action_of_process {s t : State} {inp len : Nat} {F : Frame} {r : Result} {actions : List Action} {a : Action}
    (he : exec (.process inp F len) s = .next t) (hout : t.out = s.out ++ [.frame r actions]) (ha : a ∈ actions) :
    ∃ h src dst, hasHeader s.params F h ∧ s.holds inp src ∧ s.holds a.port dst ∧
      forwards s.params src dst h.vlanId F a.bytes a.length := by
  obtain ⟨-, hr⟩ := execProcess_next he
  obtain ⟨hl, -⟩ := receive_effect hr
  rcases receive_cases (inp := inp) hl with ⟨-, e⟩ | ⟨h, hd, ⟨-, e⟩ | ⟨c, hc, ⟨-, e⟩ | ⟨-, acts, hacts, e⟩⟩⟩ <;>
    obtain rfl := next_inj (e.symm.trans hr)
  case inr.inr.inr =>
    obtain ⟨-, rfl⟩ : _ ∧ acts = actions := by simpa using hout
    obtain ⟨-, dst, hdst, hf⟩ := (mem_actions_iff hd hacts a).1 ha
    exact ⟨h, c.view, dst, (hasHeader_iff _ _ _).2 hd, holds_iff.2 ⟨c, hc, rfl⟩, hdst, hf⟩
  all_goals
    obtain ⟨-, rfl⟩ : _ ∧ actions = [] := by simpa using hout
    cases ha

theorem hasHeader_unique {P : Params} {F : Frame} {h h' : Header} (hh : hasHeader P F h) (hh' : hasHeader P F h') :
    h = h' :=
  Option.some.inj (((hasHeader_iff _ _ _).1 hh).symm.trans ((hasHeader_iff _ _ _).1 hh'))

/-- A frame with a VLAN id has it in its tag (R85). -/
theorem tag_of_vlanId {P : Params} {F : Frame} {h : Header} {v : VlanId} (hh : hasHeader P F h)
    (hv : h.vlanId = some v) : halfAt F 12 = P.tpid.toNat ∧ halfAt F 14 % 4096 = v.toNat := by
  obtain ⟨-, -, -, ⟨-, -, hnone⟩ | ⟨htpid, -, -, vid, hvid, htci⟩⟩ := hh
  · cases hnone.symm.trans hv
  · obtain rfl : vid = v := Option.some.inj (hvid.symm.trans hv)
    exact ⟨htpid, htci.symm⟩

/-- Settles O36: an Access port asks for a tag of its VLAN, so the action's port is a Trunk port. -/
theorem untaggedTrunkTrafficReachesTrunksOnly : Obligations.UntaggedTrunkTrafficReachesTrunksOnly := by
  unfold Obligations.UntaggedTrunkTrafficReachesTrunksOnly
  intro s t inp len F h r actions he hout hh htrunk hnone a ha
  obtain ⟨h', src, dst, hh', hsrc, hdst, hf⟩ := action_of_process he hout ha
  obtain rfl := hasHeader_unique hh hh'
  obtain rfl := holds_unique hsrc htrunk
  match dst, hf with
  | .access dv, ⟨hvid, _⟩ => cases hnone.symm.trans hvid
  | .trunk, ⟨hbytes, _⟩ => exact ⟨hdst, hbytes⟩

/-- Settles O37: of the rows toward an Access port, one asks for the same VLAN at the ingress port, the other for the
VLAN in the tag. -/
theorem accessPortsReceiveTheirVlanOnly : Obligations.AccessPortsReceiveTheirVlanOnly := by
  unfold Obligations.AccessPortsReceiveTheirVlanOnly
  intro s t inp len F r actions v he hout a ha haccess
  obtain ⟨h, src, dst, hh, hsrc, hdst, hf⟩ := action_of_process he hout ha
  obtain rfl := holds_unique hdst haccess
  match src, hf with
  | .access sv, ⟨hsame, hbytes, _⟩ => subst hsame; exact .inl ⟨hsrc, hbytes⟩
  | .trunk, ⟨hvid, hbytes, _⟩ =>
    obtain ⟨htpid, htci⟩ := tag_of_vlanId hh hvid
    exact .inr ⟨hsrc, htpid, htci, hbytes⟩

/-! ### A known address (R160) -/

/-- A frame's own LEARN leaves what every other address is mapped to. -/
theorem lookup_afterLearn_of_ne {h : Header} {m : Mac} (inp : Nat) (F : Frame) (s : State) (hne : m ≠ h.sm) :
    Tbl.lookup (afterLearn inp F h s).1.tbl m = Tbl.lookup s.tbl m := by
  rcases afterLearn_cases inp F h s with ⟨-, e, -⟩ | ⟨-, e, -⟩ <;> rw [e]
  rw [Tbl.lookup_write, if_neg hne.symm]

theorem candidatesOf_known {s : State} {inp p : Nat} {h : Header} (F : Frame) (hw : Tbl.wf s.tbl)
    (hm : (h.dm, p) ∈ s.tbl) (hne : h.dm ≠ h.sm) (hu : h.dm ≠ bcastMac) (hp : p ≠ inp) :
    candidatesOf inp F h s = [p] := by
  have hlook : Tbl.lookup (afterLearn inp F h s).1.tbl h.dm = some p := by
    rw [lookup_afterLearn_of_ne inp F s hne, Tbl.lookup_eq_some_iff hw]
    exact hm
  rw [candidatesOf, candidateList_of_hit hu inp hlook, hitList, if_pos hp]

/-- Settles O35: the stored port is the only candidate, and its row gives one action or none. -/
theorem knownUnicastIsNeverFlooded : Obligations.KnownUnicastIsNeverFlooded := by
  unfold Obligations.KnownUnicastIsNeverFlooded
  intro s inp p F h src dst hw hl hh hsrc hdst hm hne hu hp
  have hcand := candidatesOf_known F hw hm hne hu hp
  have hcfg : ∀ d ∈ candidatesOf inp F h s, ∃ dst, s.holds d dst := fun d hd => by
    rw [hcand, List.mem_singleton] at hd
    exact ⟨dst, hd ▸ hdst⟩
  obtain ⟨t, tf, actions, he, hout, hasc, hmem⟩ := process_forwards hl hh hsrc hcfg
  simp only [hcand, List.mem_singleton] at hmem
  have hport : ∀ a ∈ actions, a.port = p := fun a ha => ((hmem a).1 ha).1
  refine ⟨t, tf, actions, he, hout, hport, ?atMostOne, fun hdrop => ?dropped⟩
  case atMostOne =>
    have hsub : actions.map Action.port ⊆ [p] := fun q hq => by
      obtain ⟨a, ha, rfl⟩ := List.mem_map.1 hq
      exact List.mem_singleton.2 (hport a ha)
    simpa using (List.subperm_of_subset (hasc.imp Nat.ne_of_lt) hsub).length_le
  case dropped =>
    refine List.eq_nil_iff_forall_not_mem.2 fun a ha => ?_
    obtain ⟨rfl, dst', hdst', hf⟩ := (hmem a).1 ha
    obtain rfl := holds_unique hdst hdst'
    exact hdrop _ _ hf

/-! ### Flooding (R152) -/

theorem flood_length {P : Params} {inp : Nat} (hi : inp < P.numPorts) : (flood P inp).length + 1 = P.numPorts := by
  have herase : flood P inp = (List.range P.numPorts).erase inp := by
    rw [List.nodup_range.erase_eq_filter, flood]
    exact List.filter_congr fun p _ => by simp [bne, Bool.beq_eq_decide_eq]
  rw [herase, List.length_erase_of_mem (List.mem_range.2 hi), List.length_range]
  omega

theorem candidatesOf_bcast {h : Header} (inp : Nat) (F : Frame) (s : State) (hb : h.dm = bcastMac) :
    candidatesOf inp F h s = flood s.params inp := by
  rw [candidatesOf, hb, candidateList_bcast, afterLearn_params]

/-- Settles O33: every candidate's row is TT_FWD, so the actions' ports are the flooded ports. -/
theorem trunkFloodReachesEveryOtherPort : Obligations.TrunkFloodReachesEveryOtherPort := by
  unfold Obligations.TrunkFloodReachesEveryOtherPort
  intro s inp F h _ hl hh hb hinp htrunk
  have hcand := candidatesOf_bcast inp F s hb
  have hflood : ∀ p ∈ flood s.params inp, s.holds p .trunk := fun p hp => htrunk p ((mem_flood _ _ _).1 hp).1
  obtain ⟨t, tf, actions, he, hout, hasc, hmem⟩ :=
    process_forwards hl hh (htrunk inp hinp) fun d hd => ⟨.trunk, hflood d (hcand ▸ hd)⟩
  rw [hcand] at hmem
  have hports : actions.map Action.port = flood s.params inp := by
    refine hasc.eq_of_mem_iff (flood_ascending _ _) fun p => ⟨fun hp => ?_, fun hp => ?_⟩
    · obtain ⟨a, ha, rfl⟩ := List.mem_map.1 hp
      exact ((hmem a).1 ha).1
    · exact List.mem_map.2 ⟨⟨p, F, F.length⟩, (hmem _).2 ⟨hp, .trunk, hflood p hp, rfl, rfl⟩, rfl⟩
  refine ⟨t, tf, actions, he, hout, ?count, hasc.imp Nat.ne_of_lt, fun a ha => ?unchanged⟩
  case count => rw [← flood_length hinp, ← hports, List.length_map]
  case unchanged =>
    obtain ⟨hp, dst, hdst, hf⟩ := (hmem a).1 ha
    obtain rfl := holds_unique hdst (hflood _ hp)
    exact ⟨((mem_flood _ _ _).1 hp).2, hf⟩

end Sys2Proof.Machine
end

section
/-! PROCESS as a whole (R170 to R174): a well-formed frame learned, looked up and forwarded by the policy rows. -/

namespace Sys2Proof.Machine

/-- Settles O31: the candidates of phase 4 are the candidate set on the table LEARN left, phase 5 gives each the action
of its row, and `finish` changes the output alone. -/
theorem wellFormedFrameIsForwardedByPolicy : Obligations.WellFormedFrameIsForwardedByPolicy := by
  unfold Obligations.WellFormedFrameIsForwardedByPolicy
  intro s inp F h src tbl tf hw hl hh hsrc heffect hcfg
  obtain ⟨c, hc, rfl⟩ := holds_iff.1 hsrc
  have hd := (hasHeader_iff _ _ _).1 hh
  obtain ⟨hlearn, hfault⟩ := afterLearn_effect hw inp F h
  obtain ⟨rfl, rfl⟩ := learnEffect_unique heffect hlearn
  have hcand : ∀ d, d ∈ candidatesOf inp F h s ↔ isCandidate s.params (afterLearn inp F h s).1.tbl h.dm inp d :=
    fun _ => mem_candidatesOf hw heffect
  obtain ⟨actions, hacts, hr⟩ := receive_ok hl hd hc fun d hm => hcfg d ((hcand d).1 hm)
  refine ⟨_, actions, (exec_process_length inp F s).trans hr, by simp, ?fault, by simp, by simp, by simp, by simp,
    actionsOf_ports hacts (candidateList_ascending _ _ _), fun a => ?action⟩
  case fault => rw [← hfault]; simp
  case action => rw [mem_actions_iff hd hacts, hcand]

/-! ### A frame to its own source address (R151, R174) -/

/-- An address mapped to the ingress port has that port as its only candidate, under REFLECT (R151). -/
theorem isCandidate_of_learnt {P : Params} {tbl : List (Mac × Nat)} {dm : Mac} {inp : Nat} (hu : dm ≠ bcastMac)
    (hm : ∀ p, (dm, p) ∈ tbl ↔ p = inp) (p : Nat) :
    isCandidate P tbl dm inp p ↔ p = inp ∧ P.samePortHit = .reflect := by
  constructor
  · rintro (⟨hbcast | hmiss, -⟩ | ⟨-, hp, hne | hreflect⟩)
    · exact absurd hbcast hu
    · exact absurd ((hm inp).2 rfl) (hmiss inp)
    · exact absurd ((hm p).1 hp) hne
    · exact ⟨(hm p).1 hp, hreflect⟩
  · rintro ⟨hp, hreflect⟩
    exact .inr ⟨hu, (hm p).2 hp, .inr hreflect⟩

/-- Back to the port it came from, the policy forwards a frame as it is. -/
theorem forwards_self {P : Params} {cfg : PortConfig} {vlanId : Option VlanId} {F bytes : Frame} {length : Nat} :
    forwards P cfg cfg vlanId F bytes length ↔ bytes = F ∧ length = F.length := by
  cases cfg <;> simp [forwards]

/-- Settles O34: LEARN maps the destination to the ingress port, so that is the only candidate, and only under REFLECT;
its row forwards the frame as it is. -/
theorem frameToOwnSourceIsSamePortHit : Obligations.FrameToOwnSourceIsSamePortHit := by
  unfold Obligations.FrameToOwnSourceIsSamePortHit
  intro s inp F h src hw hl hh hsrc hlearn hown hu
  have hcand := isCandidate_of_learnt (P := s.params) (tbl := Tbl.write s.tbl h.sm inp) (inp := inp) hu fun p => by
    rw [mem_tblWrite hw, if_pos hown]
  have hvalid : ∀ d, isCandidate s.params (Tbl.write s.tbl h.sm inp) h.dm inp d → (validCfg s d).isSome = true :=
    fun d hd => by
      obtain ⟨rfl, -⟩ := (hcand d).1 hd
      obtain ⟨c, hc, -⟩ := holds_iff.1 hsrc
      rw [hc, Option.isSome_some]
  obtain ⟨t, actions, he, -, -, hout, -, -, -, hasc, hmem⟩ :=
    wellFormedFrameIsForwardedByPolicy s inp F h src _ _ hw hl hh hsrc (learnEffect_write inp hw hlearn) hvalid
  simp only [hcand] at hmem
  refine ⟨t, he, fun hdrop => ?drop, fun hreflect => ?reflect⟩
  case drop =>
    have hnone : actions = [] := List.eq_nil_iff_forall_not_mem.2 fun a ha => by
      obtain ⟨⟨-, hreflect⟩, -⟩ := (hmem a).1 ha
      cases hdrop.symm.trans hreflect
    rw [hout, hnone]
  case reflect =>
    have hsame : ∀ a, a ∈ actions ↔ a ∈ [(⟨inp, F, F.length⟩ : Action)] := fun a => by
      rw [hmem, List.mem_singleton]
      constructor
      · rintro ⟨⟨rfl, -⟩, dst, hdst, hf⟩
        obtain rfl := holds_unique hsrc hdst
        obtain ⟨hbytes, hlength⟩ := forwards_self.1 hf
        rw [← hlength, ← hbytes]
      · rintro rfl
        exact ⟨⟨rfl, hreflect⟩, src, hsrc, forwards_self.2 ⟨rfl, rfl⟩⟩
    have hnodup : actions.Nodup := .of_map Action.port (hasc.imp Nat.ne_of_lt)
    rw [hout, List.perm_singleton.1 ((List.perm_ext_iff_of_nodup hnodup (List.nodup_singleton _)).2 hsame)]

end Sys2Proof.Machine
end

section
/-! The host operations (R176 to R179). -/

namespace Sys2Proof.Machine

/-- The PORT_CFG word by its bits' weights (R94). -/
theorem cfgWord_weights (valid : Bool) (kind : Kind) (vlan : VlanId) : (cfgWord valid kind vlan).toNat =
    (if valid then 8192 else 0) + (if kind = .trunk then 4096 else 0) + vlan.toNat := by
  rw [cfgWord_toNat]
  cases valid <;> cases kind <;> rfl

/-- Settles O41: the register exists, and reading it only emits its word. -/
theorem cfgReadReturnsRegister : Obligations.CfgReadReturnsRegister := by
  unfold Obligations.CfgReadReturnsRegister
  intro s p c hp hc
  exact ⟨_, exec_cfgRead_of_reg hp hc, cfgWord_weights _ _ _⟩

theorem exec_cfgWrite_of_lt {s : State} {p : Nat} (hp : p < s.params.numPorts) (valid : Bool) (kind : Kind)
    (vlan : VlanId) :
    exec (.cfgWrite p valid kind vlan) s = .next (s.setPortCfg (s.portCfg.set p ⟨valid, kind, vlan⟩)) :=
  writePortCfg_lt hp _

/-- Settles O40: the write sets one element of the register list, which the read then finds. -/
theorem cfgReadReturnsWhatCfgWriteWrote : Obligations.CfgReadReturnsWhatCfgWriteWrote := by
  unfold Obligations.CfgReadReturnsWhatCfgWriteWrote
  intro s p valid kind vlan hregs hp
  have hwritten : (s.portCfg.set p ⟨valid, kind, vlan⟩)[p]? = some ⟨valid, kind, vlan⟩ :=
    List.getElem?_set_self (hregs ▸ hp)
  exact ⟨_, _, exec_cfgWrite_of_lt hp valid kind vlan, rfl, fun q hq => List.getElem?_set_ne hq.symm, hwritten,
    exec_cfgRead_of_reg hp hwritten, cfgWord_weights _ _ _⟩

/-- Settles O43: the answer is emitted, and nothing else happens. -/
theorem faultReadReturnsFault : Obligations.FaultReadReturnsFault := by
  unfold Obligations.FaultReadReturnsFault
  exact fun _ => rfl

/-- Settles O44: the registers of the reset state are the unspecified ones, whose `valid` is 0. -/
theorem resetClearsTableConfigurationAndFault : Obligations.ResetClearsTableConfigurationAndFault := by
  unfold Obligations.ResetClearsTableConfigurationAndFault
  intro s
  refine ⟨_, rfl, rfl, rfl, rfl, ?oneAPort, fun c hc => ?invalid, rfl, rfl, rfl⟩
  case oneAPort => simp [State.resetAt]
  case invalid =>
    obtain ⟨p, -, rfl⟩ := List.mem_map.1 hc
    rfl

end Sys2Proof.Machine
end

section
/-! How a frame ends (R170, R200 to R206): the RESULT shown decides FAULT, and each error end is one of `receive`'s. -/

namespace Sys2Proof.Machine

/-- What the RESULT a frame shows says of the state after it (R29, R206). -/
theorem receive_shows {inp : Nat} {F : Frame} {s t : State} (code : Code) {tf : Bool} {actions : List Action}
    (h : receive inp F s = .next t) (hout : t.out = s.out ++ [.frame ⟨code, tf⟩ actions]) :
    t.fault = faultAfter s.fault tf (bitOf code) ∧ t.out = s.out ++ [.frame ⟨code, tf⟩ actions] ∧
      t.portCfg = s.portCfg ∧ t.params = s.params ∧ t.pending = s.pending := by
  obtain ⟨-, hparams, hpending, hcfg, ⟨r, actions', hout', hfault, -⟩, -⟩ := receive_effect h
  obtain ⟨rfl, -⟩ : r = ⟨code, tf⟩ ∧ actions' = actions := by simpa [hout'] using hout
  exact ⟨by rw [hfault, faultBit_eq_bitOf]; rfl, hout, hcfg, hparams, hpending⟩

/-- A well-formed frame ends with the table and the tbl_full of its own LEARN, whatever the code (R140, R202). -/
theorem receive_reports_learnt {inp : Nat} {F : Frame} {s : State} {h : Header} {tbl : List (Mac × Nat)} {tf : Bool}
    (hw : Tbl.wf s.tbl) (hl : F.length ≤ s.params.maxFrameBytes) (hh : hasHeader s.params F h)
    (heffect : learnEffect s h.sm inp tbl tf) : ∃ t code actions,
    receive inp F s = .next t ∧ t.tbl = tbl ∧ t.out = s.out ++ [.frame ⟨code, tf⟩ actions] := by
  have hd := (hasHeader_iff _ _ _).1 hh
  obtain ⟨rfl, rfl⟩ := learnEffect_unique heffect (afterLearn_effect hw inp F h).1
  rcases receive_cases (inp := inp) hl with ⟨hnone, -⟩ | ⟨h', hd', hends⟩
  · cases hnone.symm.trans hd
  obtain rfl : h' = h := Option.some.inj (hd'.symm.trans hd)
  rcases hends with ⟨-, e⟩ | ⟨c, -, ⟨-, e⟩ | ⟨-, actions, -, e⟩⟩
  · exact ⟨_, .unknownIngress, [], e, by simp, by simp⟩
  · exact ⟨_, .unknownEgress, [], e, by simp, by simp⟩
  · exact ⟨_, .ok, actions, e, by simp, by simp⟩

/-- Settles O28: phase 1 ends the frame before LEARN, and the RESULT shown sets the one FAULT bit. -/
theorem malformedFrameIsDropped : Obligations.MalformedFrameIsDropped := by
  unfold Obligations.MalformedFrameIsDropped
  intro s inp F hl hm
  have hr := receive_malformed (inp := inp) hl ((isMalformed_iff _ _).1 hm)
  obtain ⟨hfault, hout, hkept⟩ := receive_shows .malformed (tf := false) (actions := []) hr (by simp)
  exact ⟨_, (exec_process_length inp F s).trans hr, by simpa [faultAfter, bitOf] using hfault, hout, by simp, hkept⟩

/-- Settles O29: phase 3 ends the frame with the table and the tbl_full that LEARN left. -/
theorem unknownIngressIsReported : Obligations.UnknownIngressIsReported := by
  unfold Obligations.UnknownIngressIsReported
  intro s inp F h hw hl hh hnone
  have hr := receive_unknownIngress hl ((hasHeader_iff _ _ _).1 hh) hnone
  exact ⟨_, (afterLearn inp F h s).2, (exec_process_length inp F s).trans hr,
    by simpa using (afterLearn_effect hw inp F h).1, receive_shows .unknownIngress hr (by simp)⟩

/-- Settles O30: the candidates of phase 4 are the candidate set on the table LEARN left, and phase 5 checks all of them
before it builds an action. -/
theorem unknownEgressIsAllOrNothing : Obligations.UnknownEgressIsAllOrNothing := by
  unfold Obligations.UnknownEgressIsAllOrNothing
  intro s inp d F h src tbl tf hw hl hh hsrc heffect hcand hnone
  obtain ⟨c, hc, -⟩ := holds_iff.1 hsrc
  have hm : d ∈ candidatesOf inp F h s := (mem_candidatesOf hw heffect).2 hcand
  have hr := receive_unknownEgress hl ((hasHeader_iff _ _ _).1 hh) hc ⟨d, hm, hnone⟩
  obtain ⟨rfl, rfl⟩ := learnEffect_unique heffect (afterLearn_effect hw inp F h).1
  exact ⟨_, (exec_process_length inp F s).trans hr, by simp,
    receive_shows .unknownEgress hr (by simp)⟩

end Sys2Proof.Machine
end

section
/-! The RESULT rows that complete (R32, R200 to R204; log entry 9): a row that says what the PROCESS of the next RX
transaction shows is that PROCESS. -/

namespace Sys2Proof.Machine

/-- A RESULT row runs where the next frame's PROCESS ends as the row says, and is that PROCESS. -/
theorem exec_next_of_row {i : Instr} {row : Result → List Action → Bool} {inp : Nat} {F : Frame} {rest : List Txn}
    {s t : State} {r : Result} {actions : List Action} (he : exec i s = reporting row s)
    (hq : s.receivesNext inp F rest) (hrun : exec (.process inp F F.length) (s.setPending rest) = .next t)
    (hout : t.out = s.out ++ [.frame r actions]) (hrow : row r actions = true) : exec i s = .next t := by
  obtain ⟨hpending, hp, hl⟩ := hq
  have hr : receive inp F (s.setPending rest) = .next t := (exec_process_length inp F _).symm.trans hrun
  rw [he, reporting_of_receive (nextRx_cons hpending (decide_eq_true hp) hl) hr hout, if_pos hrow]

/-- Settles O46: each row is the PROCESS of the next RX transaction, which ends as O28, O29 and O30 say. -/
theorem errorRowsSetTheirFaultBit : Obligations.ErrorRowsSetTheirFaultBit := by
  unfold Obligations.ErrorRowsSetTheirFaultBit
  intro s inp F rest hq
  have ⟨_, _, hl⟩ := hq
  refine ⟨fun hm => ?malformed,
    fun h tbl tf hw hh heffect => ⟨fun hnone => ?ingress, fun src d hsrc hcand hnone => ?egress⟩⟩
  case malformed =>
    obtain ⟨t, hrun, hfault, hout, hkept⟩ := malformedFrameIsDropped (s.setPending rest) inp F hl hm
    exact ⟨t, exec_next_of_row (exec_malformed s) hq hrun hout rfl, hrun, hfault, hout, hkept⟩
  case ingress =>
    obtain ⟨t, tf', hrun, heffect', hfault, hout, hkept⟩ :=
      unknownIngressIsReported (s.setPending rest) inp F h hw hl hh hnone
    obtain ⟨htbl, rfl⟩ := learnEffect_unique heffect' heffect
    exact ⟨t, exec_next_of_row (exec_unknownIngress tf' s) hq hrun hout (by simp), hrun, hfault, hout, htbl, hkept⟩
  case egress =>
    obtain ⟨t, hrun, htbl, hfault, hout, hkept⟩ :=
      unknownEgressIsAllOrNothing (s.setPending rest) inp d F h src tbl tf hw hl hh hsrc heffect hcand hnone
    exact ⟨t, exec_next_of_row (exec_unknownEgress tf s) hq hrun hout (by simp), hrun, hfault, hout, htbl, hkept⟩

/-- Settles O47: OK is the PROCESS of O31; TBL_FULL answers any well-formed frame whose LEARN found the table full, as
its RESULT then has tbl_full = 1. -/
theorem okAndTblFullRowsReport : Obligations.OkAndTblFullRowsReport := by
  unfold Obligations.OkAndTblFullRowsReport
  intro s inp F rest h tbl tf hq hw hh heffect
  have ⟨_, _, hl⟩ := hq
  refine ⟨fun src hsrc hcfg => ?ok, fun hfull => ?tblFull⟩
  case ok =>
    obtain ⟨t, actions, hrun, htbl, hfault, hout, hkept⟩ :=
      wellFormedFrameIsForwardedByPolicy (s.setPending rest) inp F h src tbl tf hw hl hh hsrc heffect hcfg
    exact ⟨t, actions, exec_next_of_row (exec_ok tf actions s) hq hrun hout (by simp), hrun, htbl, hfault, hout, hkept⟩
  case tblFull =>
    obtain ⟨rfl, rfl⟩ := heffect.2 hfull
    obtain ⟨t, code, actions, hr, htbl, hout⟩ := receive_reports_learnt (s := s.setPending rest) hw hl hh heffect
    obtain ⟨hfault, -, hkept⟩ := receive_shows code hr hout
    have hrun := (exec_process_length inp F _).trans hr
    exact ⟨t, ⟨code, true⟩, actions, exec_next_of_row (exec_tblFull s) hq hrun hout rfl, hrun, rfl, hfault, hout, htbl,
      hkept⟩

end Sys2Proof.Machine
end

section
/-! Steps that change nothing (R213) and steps that are refused (R211; log entries 5 and 8). -/

namespace Sys2Proof.Machine

theorem step_idle {s : State} (hq : s.pending = []) : step s = .next s := by simp only [step, hq]

theorem step_of_decode_error {s : State} {t : Txn} {rest : List Txn} {why : Reject} (hq : s.pending = t :: rest)
    (hd : decode s.params t = .error why) : step s = .refused (.undecodable why) := by
  simp only [step, hq, hd]

/-- Settles O2: the two arms of `step` that execute no operation. -/
theorem stepIdlesOrRejects : Obligations.StepIdlesOrRejects := by
  unfold Obligations.StepIdlesOrRejects
  exact ⟨fun _ => step_idle, fun _ _ _ _ => step_of_decode_error⟩

/-! ### Preconditions of the policy's codec operations and of the registers (R112, R113, R176) -/

theorem policyOut_access_trunk_short {F : Frame} (P : Params) (sv : VlanId) (vlanId : Option VlanId) (len : Nat)
    (h : F.length < 12) : policyOut P .access sv .trunk vlanId F len = .error .insertShort := by
  simp only [policyOut, insertTag, if_neg (Nat.not_le.2 h)]

theorem policyOut_trunk_access_untagged {P : Params} {F : Frame} (sv dv : VlanId) (len : Nat)
    (h : ¬ (18 ≤ F.length ∧ halfAt F 12 = P.tpid.toNat)) :
    policyOut P .trunk sv (.access dv) (some dv) F len = .error .stripUntagged := by
  simp only [policyOut, if_true, stripTag, if_neg (mt (isTagged_iff _ _).1 h)]

theorem readPortCfg_ge {s : State} {p : Nat} (h : s.params.numPorts ≤ p) :
    readPortCfg p s = .error .noSuchRegister := by
  unfold readPortCfg hostReg
  rw [if_neg (by omega)]
  by_cases hp : p = s.params.numPorts <;> simp [hp]

theorem exec_cfgRead_ge {s : State} {p : Nat} (h : s.params.numPorts ≤ p) :
    exec (.cfgRead p) s = .refused .noSuchRegister := by
  simp only [exec, execCfgRead, readPortCfg_ge h]

/-- PROCESS outside the contract of R30: a length that is not the byte count, or too many bytes (U4). -/
theorem exec_process_refused {s : State} {F : Frame} {len : Nat} (inp : Nat)
    (h : len ≠ F.length ∨ s.params.maxFrameBytes < F.length) :
    exec (.process inp F len) s = .refused .rxContract := by
  by_cases hlen : len = F.length
  · rw [hlen, exec_process_length, receive_overlong (h.resolve_left (not_not_intro hlen))]
  · exact if_neg hlen

/-- Settles O49: each operation is refused by the check of the precondition it violates. -/
theorem preconditionViolationsAreRefused : Obligations.PreconditionViolationsAreRefused := by
  unfold Obligations.PreconditionViolationsAreRefused
  intro s F inp len p d v sk vlanId
  refine ⟨exec_process_refused inp, fun hlen => ⟨if_neg hlen, if_neg hlen⟩, fun h12 => ?insert, fun htag => ?strip,
    fun hp valid kind word => ⟨writePortCfg_ge hp _, exec_cfgRead_ge hp, writePortCfg_ge hp _⟩⟩
  case insert =>
    refine ⟨?_, fun hd => ?_⟩
    · rw [exec_atTag, policyOut_access_trunk_short _ _ _ _ h12]
      rfl
    · rw [exec_policy_of_holds hd, policyOut_access_trunk_short _ _ _ _ h12]
      rfl
  case strip =>
    refine ⟨?_, fun sv hd => ?_⟩
    · rw [exec_taStrip, policyOut_trunk_access_untagged _ _ _ htag]
      rfl
    · rw [exec_policy_of_holds hd, policyOut_trunk_access_untagged _ _ _ htag]
      rfl

end Sys2Proof.Machine
end
